-- ==== Sys2Proof/Word.lean ====
section
/-! DEFINITION. The types of KSE's data (spec/00_scope.md R9, R11, R12): a byte is 8 bits, a Word is exactly 4 bytes,
held as the 32-bit value `word32` gives it (byte 0 in bits 31..24). Everything is unsigned. -/

namespace Sys2Proof

/-- A byte (R9, R11): a value of width 8, bit 0 the least significant. -/
abbrev Byte := BitVec 8

/-- A Word (R12) as its 32-bit value; the byte order is in `Sys2Proof.Machine.word32` and `Sys2Proof.Machine.bytes4`. -/
abbrev Word := BitVec 32

/-- A format Q request word (spec/30_encoding.md R91). -/
abbrev Request := BitVec 272

/-- A format S step control word (R98). -/
abbrev StepWord := BitVec 8

/-- A format A response word (R95). -/
abbrev ResponseWord := BitVec 34

end Sys2Proof
end

