-- ==== Sys2Proof/Syntax.lean ====
section
/-! DEFINITION. The instructions, the words that carry them, and the responses, as syntax
(spec/opcode_table.json; spec/30_encoding.md R90 to R101; spec/60_exceptions.md R271). -/

namespace Sys2Proof

/-- One constructor per row of spec/opcode_table.json. -/
inductive Instr where
  /-- `GETRK key, index` (format Q, R93, R245): the three fields of the request; `slots` are the 32 key-byte slots,
  slot 0 first, of which the first `keylen` are the key. -/
  | getrk (keylen : Byte) (slots : List Byte) (index : Byte)
  /-- `KLD` (R210). -/
  | kld
  /-- `XP` (R211). -/
  | xp
  /-- `XS` (R212). -/
  | xs
  /-- `XG j` (R213): `j` is the field RCI, zero-extended and not scaled (R101). -/
  | xg (j : Nat)
deriving DecidableEq, Repr

/-- An instruction word on the interface it travels on (R90: "Which format a word has is known from the interface it
travels on, never from its bits"). -/
inductive CodeWord where
  /-- A format Q word on the request channel. -/
  | request (q : Request)
  /-- A format S word from the variant selector (or from a hand-written step program). -/
  | step (w : StepWord)
deriving DecidableEq, Repr

/-- The three error kinds (R271). -/
inductive KseError where
  /-- The key's byte length is not 16, 24 or 32 (R272). -/
  | invalidKeyLength
  /-- The round-key index or the round-constant index is out of range (R273, R274). -/
  | indexOutOfRange
  /-- A 4-byte-word operation received another length (R276: never raised by KSE). -/
  | invalidWordLength
deriving DecidableEq, Repr

/-- A response (R96): `Ok(word)` or `Err(code)`; an error carries no word. -/
inductive Response where
  | ok (word : Word)
  | err (error : KseError)
deriving DecidableEq, Repr

end Sys2Proof
end

