-- ==== Sys2Proof/WellFormed.lean ====
section
/-! DEFINITION. The instructions an encoding exists for (spec/30_encoding.md R91, R93, R98, R101). What is not checked
here is bounded by its type: KEYLEN and INDEX are bytes. A request with a bad length or a bad index is well formed
(R92): executing it returns an error. -/

namespace Sys2Proof

/-- `GETRK` has exactly 32 key-byte slots (R91); `XG j` has `j` in 0..15 (R101). -/
def Instr.wf : Instr → Bool
  | .getrk _ slots _ => slots.length == 32
  | .kld => true
  | .xp => true
  | .xs => true
  | .xg j => decide (j < 16)

end Sys2Proof
end

