-- ==== Sys2Proof/Decode.lean ====
section
/-! DEFINITION. Decoding and encoding (spec/30_encoding.md): format Q requests (R91 to R93), format S step control
words (R98 to R102, R109), format A responses (R95 to R97). Decoding is total; a reserved word is rejected by name. -/

namespace Sys2Proof

/-! ## Format Q -/

/-- Key-byte slot `k` of a request: bits 263-8k .. 256-8k (R91). -/
def requestSlot (q : Request) (k : Nat) : Byte := q.extractLsb' (256 - 8 * k) 8

/-- Every request decodes to `GETRK` (R92): KEYLEN is bits 271..264, the 32 slots bits 263..8, INDEX bits 7..0. -/
def decodeRequest (q : Request) : Instr :=
  .getrk (q.extractLsb' 264 8) ((List.range 32).map (requestSlot q)) (q.extractLsb' 0 8)

/-- The number whose base-256 digits are the bytes, most significant first. -/
def packBytes (bytes : List Byte) : Nat := bytes.foldl (fun n b => n * 256 + b.toNat) 0

/-- R91: "most significant first, a request reads: two digits of KEYLEN, then the key bytes in order, two digits each,
padded on the right to 32 bytes, then two digits of INDEX." -/
def encodeRequest (keylen : Byte) (slots : List Byte) (index : Byte) : Request :=
  BitVec.ofNat 272 (packBytes (keylen :: slots ++ [index]))

/-! ## Format S -/

/-- The fields of a step control word (R98). -/
def StepWord.ld (w : StepWord) : Bool := w.getLsbD 7
def StepWord.rot (w : StepWord) : Bool := w.getLsbD 6
def StepWord.sub (w : StepWord) : Bool := w.getLsbD 5
def StepWord.rce (w : StepWord) : Bool := w.getLsbD 4
def StepWord.rci (w : StepWord) : Nat := (w.extractLsb' 0 4).toNat

/-- One row of the opcode map of format S (R99, R109): a word whose bits under `mask` are `pattern` is `instr rci`. -/
structure StepRow where
  mask : StepWord
  pattern : StepWord
  instr : Nat → Instr

/-- The opcode map of format S (R99; spec/opcode_table.json). -/
def stepRows : List StepRow :=
  [ ⟨0xFF#8, 0x80#8, fun _ => .kld⟩,
    ⟨0xFF#8, 0x00#8, fun _ => .xp⟩,
    ⟨0xFF#8, 0x20#8, fun _ => .xs⟩,
    ⟨0xF0#8, 0x70#8, fun j => .xg j⟩ ]

/-- Whether a row of the map matches a word (R109: "compare `word & mask` with `match`"). -/
def StepRow.matchesWord (r : StepRow) (w : StepWord) : Bool := w &&& r.mask == r.pattern

/-- Why a word is rejected: the three groups of reserved format S words (R102). -/
inductive DecodeReject where
  /-- (a) LD = 1 with any other bit set (0x81 to 0xFF). -/
  | loadWithOtherBits
  /-- (b) LD = 0 with (ROT, SUB, RCE) not one of 000, 010, 111. -/
  | unitEnables
  /-- (c) LD = 0, RCE = 0 and RCI not 0 (0x01 to 0x0F, 0x21 to 0x2F). -/
  | constantIndexWithoutEnable
deriving DecidableEq, Repr

/-- The group of R102 a reserved word falls in. -/
def reservedGroup (w : StepWord) : DecodeReject :=
  if w.ld then .loadWithOtherBits
  else if (w.rot, w.sub, w.rce) ∈ [(false, false, false), (false, true, false), (true, true, true)] then
    .constantIndexWithoutEnable
  else .unitEnables

/-- Decode a format S word (R99, R102, R109). -/
def decodeStep (w : StepWord) : Except DecodeReject Instr :=
  match stepRows.find? (·.matchesWord w) with
  | some r => .ok (r.instr w.rci)
  | none => .error (reservedGroup w)

/-! ## Both interfaces -/

/-- Decode a word on the interface it travels on (R90). -/
def decode : CodeWord → Except DecodeReject Instr
  | .request q => .ok (decodeRequest q)
  | .step w => decodeStep w

/-- The word of an instruction (R91, R99, R101). -/
def encode : Instr → CodeWord
  | .getrk keylen slots index => .request (encodeRequest keylen slots index)
  | .kld => .step 0x80#8
  | .xp => .step 0x00#8
  | .xs => .step 0x20#8
  | .xg j => .step (0x70#8 + BitVec.ofNat 8 j)

/-- The HOST's reader: the instruction decoded from a row's bits, numbered as spec/opcode_table.json numbers them (bit 0
the least significant). A row of 272 bits is one request word, a row of 8 bits one step control word; KSE has no other
word (R90), and its words are not laid out in bytes of a memory. -/
def decodeTableWord (nbits w : Nat) : Option Instr :=
  if nbits = 272 then (if w >>> 272 = 0 then some (decodeRequest (BitVec.ofNat 272 w)) else none)
  else if nbits = 8 then (if w >>> 8 = 0 then (decodeStep (BitVec.ofNat 8 w)).toOption else none)
  else none

/-! ## Format A -/

/-- The code number of an error (R95, R271). -/
def KseError.code : KseError → BitVec 2
  | .invalidKeyLength => 1#2
  | .indexOutOfRange => 2#2
  | .invalidWordLength => 3#2

/-- The field CODE of a response (R95). -/
def Response.code : Response → BitVec 2
  | .ok _ => 0#2
  | .err e => e.code

/-- The field WORD of a response: the schedule word, or 32 zero bits that are not a result (R95, R96). -/
def Response.word : Response → Word
  | .ok w => w
  | .err _ => 0#32

/-- The format A word of a response: CODE in bits 33..32, WORD in bits 31..0 (R95, R96). -/
def Response.encode (r : Response) : ResponseWord := r.code ++ r.word

/-- Read a format A word: CODE 0 is `Ok(WORD)`, CODE 1..3 with WORD = 0 an error; CODE not 0 with WORD not 0 is no
response of KSE (R97). -/
def decodeResponse (a : ResponseWord) : Option Response :=
  let code := a.extractLsb' 32 2
  let word := a.extractLsb' 0 32
  if code = 0#2 then some (.ok word)
  else if word = 0#32 then
    some (.err (if code = 1#2 then .invalidKeyLength else if code = 2#2 then .indexOutOfRange else .invalidWordLength))
  else none

end Sys2Proof
end

