-- ==== Sys2Proof/Config.lean ====
section
/-! DEFINITION. What is fixed for the machine and not state (spec/00_scope.md R9, R10; spec/10_state.md R43): the fixed
sizes, and the one free value of the model, the victim of an eviction. RC and the intended table
of SBOX stand in Machine/Roms.lean. The open parameters CACHE_CAP, RC_IMPL and SBOX are held in State as plain data (log
entries 5, 7 and 9). -/

namespace Sys2Proof.Config

/-- NW_MAX: the words of the schedule store (R9, R10). -/
def nwMax : Nat := 60

/-- KEY_BYTES: the capacity of the key operand (R10). -/
def keyBytes : Nat := 32

/-- The cache victim of the `n`-th draw (R10, R249: a draw "under no law"), before it is reduced to an index of the
bank: a FREE VALUE, so it has no body and nothing can be proved of it. Log entry 6. -/
opaque victim : Nat → Nat

end Sys2Proof.Config
end

