-- ==== Sys2Proof/Machine/State.lean ====
section
/-! DEFINITION. The state of KSE (spec/10_state.md R20 to R44), the HOST agent that drives it (spec/46_getroundkey.md
R240 to R243, R253; spec/70_reset_and_hazards.md R310), the model's own fields, and the reasons a step can stop. -/

namespace Sys2Proof.Machine

/-- The response register RESP (R34). -/
structure Resp where
  /-- VALID: a response is waiting for HOST. -/
  valid : Bool
  /-- CODE: 0 OK, 1 InvalidKeyLength, 2 IndexOutOfRange, 3 InvalidWordLength. -/
  code : BitVec 2
  /-- WORD: the schedule word when CODE = 0, all zeros otherwise. -/
  word : Word
deriving DecidableEq, Repr

/-- One entry of the cache: a key value and its schedule (R38). -/
structure Entry where
  key : List Byte
  sched : List Word
deriving DecidableEq, Repr

/-- CACHE: three banks, one per variant (R39). Each bank lists its entries with strictly rising keys
(`Sys2Proof.Machine.Memory.wf`), so that equal maps are equal data (log entry 8). -/
structure Cache where
  bank128 : List Entry
  bank192 : List Entry
  bank256 : List Entry
deriving DecidableEq, Repr

/-- What HOST can do (R243, R253, R310). -/
inductive HostMove where
  /-- Put a request on the request channel, behind those already waiting there. -/
  | offer (q : Request)
  /-- Take the response; HOST waits until one is there. -/
  | take
  /-- Assert the reset input. -/
  | reset
  /-- Do nothing while KSE makes one move. -/
  | tick
deriving DecidableEq, Repr

/-- The level a request is served at (R8). MODEL's own (log entry 3). -/
inductive Level where
  /-- One `GETRK` is one transition. -/
  | command
  /-- One schedule word is one transition. -/
  | step
deriving DecidableEq, Repr

/-- RC_IMPL (R10, R177): whether the generator register RCREG exists. Log entry 7. -/
inductive RcImpl where
  | table
  | xtimeRegister
deriving DecidableEq, Repr

/-- The whole state. -/
structure State where
  /-- KEYLEN (R22, R23). -/
  keylen : Byte
  /-- KEY[0..31] (R22, R23). -/
  key : Vector Byte 32
  /-- INDEX (R22, R24). -/
  index : Byte
  /-- I, the pc (R26, R27). -/
  pc : BitVec 6
  /-- TEMP (R31). -/
  temp : Word
  /-- W[0..59] (R28). -/
  w : Vector Word 60
  /-- WV[0..59] (R30). -/
  wv : Vector Bool 60
  /-- RCREG (R37, R177). -/
  rcreg : Byte
  /-- CACHE (R38 to R41). -/
  cache : Cache
  /-- RESP (R34). -/
  resp : Resp
  /-- BUSY (R35). -/
  busy : Bool
  /-- The requests standing at the request channel, the next to be served first (R241, R243, R71). -/
  port : List Request
  /-- What HOST is going to do, first move first. -/
  host : List HostMove
  /-- The format A words HOST has taken, oldest first (R240, R242). -/
  received : List ResponseWord
  /-- MODEL's own: the level requests are served at (R8). -/
  level : Level
  /-- MODEL's own: a hand-written step program; its word `i` is executed at pc = i in place of `StepSel(NK, i)` (R103). -/
  program : Option (List StepWord)
  /-- MODEL's own: the parameter CACHE_CAP, `none` for unbounded (R10, R41). Never written by a step. -/
  cacheCap : Option Nat
  /-- MODEL's own: how many victims have been drawn (R249). -/
  draws : Nat
  /-- MODEL's own: the parameter RC_IMPL (R10, R177). Never written by a step. -/
  rcImpl : RcImpl
  /-- SBOXROM (R60, R153): the parameter SBOX (R6, R10), any table of 256 bytes. Never written (R43, R78). -/
  sboxRom : SboxTable
deriving DecidableEq, Repr

/-- The model faults of the spec. -/
inductive Fault where
  /-- Raised by `XP`, `XS`, `XG` that read schedule word `k` at pc = `pc` while WV[k] = 0 (R30, R283). Safe: the spec
  itself makes it a model fault, "not a value, not zero, and not an error code". -/
  | unwrittenRead (k pc : Nat)
deriving DecidableEq, Repr

/-- The refusals of the spec (R278). -/
inductive Refusal where
  /-- Raised by the dispatcher for an instruction that has no meaning yet. Safe. -/
  | notModelled (mnemonic : String)
  /-- Raised by the sequencer on a reserved format S word (R102, R278): "A model refuses them". Safe. -/
  | reservedStepWord (w : StepWord)
  /-- Raised by `KLD` at pc >= NK and by `XP`, `XS`, `XG` outside NK <= pc < NW (R103, R278). Safe: the spec refuses
  them. -/
  | illegalPosition (pc : Nat)
deriving DecidableEq, Repr

/-- The machine right after reset (R29, R44, R311). The values of KEYLEN, KEY, INDEX, TEMP, W, RCREG, RESP.CODE and
RESP.WORD are DESIGN CHOICES (log entry 1: the spec leaves them unspecified), as are the HOST's and the model's own
fields (log entries 2 to 7); SBOXROM holds the intended value of the parameter SBOX, PRESUMED (log entry 9). -/
def State.reset : State where
  keylen := 0#8
  key := Vector.replicate 32 0#8
  index := 0#8
  pc := 0#6
  temp := 0#32
  w := Vector.replicate 60 0#32
  wv := Vector.replicate 60 false
  rcreg := 0#8
  cache := ⟨[], [], []⟩
  resp := ⟨false, 0#2, 0#32⟩
  busy := false
  port := []
  host := []
  received := []
  level := .command
  program := none
  cacheCap := none
  draws := 0
  rcImpl := .xtimeRegister
  sboxRom := standardSbox

end Sys2Proof.Machine
end

