-- ==== Sys2Proof/Machine/Flags.lean ====
section
/-! DEFINITION. KSE has no flags, condition codes or predicates (spec/10_state.md R32), so no instruction computes one.
The only status it reports is the response's CODE (R32, R34): here is how a response is laid out in RESP. -/

namespace Sys2Proof.Machine

/-- RESP while the response `r` waits for HOST (spec/46_getroundkey.md R252): VALID = 1, CODE and WORD as R95. -/
def Resp.ofResponse (r : Response) : Resp := ⟨true, r.code, r.word⟩

/-- The format A word RESP drives on the response channel (spec/30_encoding.md R95). -/
def Resp.wire (r : Resp) : ResponseWord := r.code ++ r.word

end Sys2Proof.Machine
end

