-- ==== Sys2Proof/Machine/Bytes.lean ====
section
/-! DEFINITION. The byte order of KSE, decided here once (spec/00_scope.md R12; spec/20_memory.md R62): the byte with the
lowest index is the most significant byte of a Word's 32-bit value. -/

namespace Sys2Proof.Machine

/-- `word32([b0,b1,b2,b3])` (R12): b0 in bits 31..24. -/
def word32 (b0 b1 b2 b3 : Byte) : Word := b0 ++ b1 ++ b2 ++ b3

/-- Byte `k` (0..3) of a Word (R12): byte 0 is the high byte. -/
def byteAt (w : Word) (k : Nat) : Byte := w.extractLsb' (24 - 8 * k) 8

/-- `bytes4(v)` (R12), the inverse of `word32`. -/
def bytes4 (w : Word) : List Byte := [byteAt w 0, byteAt w 1, byteAt w 2, byteAt w 3]

end Sys2Proof.Machine
end

