-- ==== Sys2Proof/Machine/Select.lean ====
section
/-! DEFINITION. The variant selector (spec/40_variant_select.md): `Classify` (R120) and `StepSel` (R125). It reads the
key's length and the step counter and nothing else (R131). -/

namespace Sys2Proof.Machine

/-- The selector outputs VAR, NK, NR, NW (spec/10_state.md R25). -/
structure Variant where
  var : BitVec 2
  nk : Nat
  nr : Nat
  nw : Nat
deriving DecidableEq, Repr

/-- `Classify(keylen)` (R120). -/
def classify (keylen : Nat) : Variant :=
  if keylen = 16 then ⟨0#2, 4, 10, 44⟩
  else if keylen = 24 then ⟨1#2, 6, 12, 52⟩
  else if keylen = 32 then ⟨2#2, 8, 14, 60⟩
  else ⟨3#2, 0, 0, 0⟩

/-- `StepSel(nk, i)` (R125): the format S word of the step at `pc = i`; the tests are made in this order. -/
def stepSel (nk i : Nat) : StepWord :=
  if i < nk then 0x80#8
  else if i % nk = 0 then 0x70#8 + BitVec.ofNat 8 (i / nk - 1)
  else if nk = 8 ∧ i % nk = 4 then 0x20#8
  else 0x00#8

end Sys2Proof.Machine
end

