-- ==== Sys2Proof/Machine/Operands.lean ====
section
/-! DEFINITION. Every operand form: the operands of `GETRK` (spec/30_encoding.md R93), the selector outputs
(spec/10_state.md R25), and the three implicit addressing modes of the step instructions (spec/45_expand_steps.md
R224): key-relative, schedule-relative, and table indices (the last are the arguments of `sbox` and `rcon`). -/

namespace Sys2Proof.Machine

/-- The key bytes of a request: the first `keylen` slots; slots from `keylen` on are no part of the key (R23, R93). -/
def requestKey (keylen : Byte) (slots : List Byte) : List Byte := slots.take keylen.toNat

/-- The latched key value (R23). -/
def State.keyValue (s : State) : List Byte := s.key.toList.take s.keylen.toNat

/-- VAR, NK, NR, NW of the latched KEYLEN (R25): not storage. -/
def State.variant (s : State) : Variant := classify s.keylen.toNat
def State.var (s : State) : BitVec 2 := s.variant.var
def State.nk (s : State) : Nat := s.variant.nk
def State.nw (s : State) : Nat := s.variant.nw

/-- The value of the step counter as a word index (R26). -/
def State.pcNat (s : State) : Nat := s.pc.toNat

/-- Byte `k` of the space KEY; `k` is at most 31 by construction (R65). -/
def State.keyByte (s : State) (k : Nat) : Byte := (s.key[k]?).getD 0#8

/-- `MemRead(KEY, a, 4)` as a Word (R63, R224a). -/
def State.readKey (s : State) (a : Nat) : Word :=
  word32 (s.keyByte a) (s.keyByte (a + 1)) (s.keyByte (a + 2)) (s.keyByte (a + 3))

/-- A read of `W[k]` by a step: no value while WV[k] = 0 (R30, R224b). -/
def State.readW (s : State) (k : Nat) : Option Word := if (s.wv[k]?).getD false then s.w[k]? else none

end Sys2Proof.Machine
end

