-- ==== Sys2Proof/Machine/Units.lean ====
section
/-! DEFINITION. The datapath units as functions: the word-rotation unit (spec/41_rotword.md), the S-box lookup pipeline
(spec/42_subword_sbox.md), the round-constant generator (spec/43_rcon.md) and the XOR combiner (spec/44_xor.md). A Word
is 32 bits by construction, so the length precondition of `RotWord` and `SubWord` always holds (R142, R158). -/

namespace Sys2Proof.Machine

/-- `RotWord([b0,b1,b2,b3]) = [b1,b2,b3,b0]` (R140). -/
def rotWord (w : Word) : Word := word32 (byteAt w 1) (byteAt w 2) (byteAt w 3) (byteAt w 0)

/-- `SubWord` (R150, R152: four independent lanes) over the contents of SBOXROM, which are a parameter (R153;
spec/93_implementation_defined.md K1). -/
def subWord (table : SboxTable) (w : Word) : Word :=
  word32 (sbox table (byteAt w 0)) (sbox table (byteAt w 1)) (sbox table (byteAt w 2)) (sbox table (byteAt w 3))

/-- `Xtime(b)`, doubling in GF(2^8) (R175). -/
def xtime (b : Byte) : Byte := (b <<< 1) ^^^ (if b.getLsbD 7 then 0x1B#8 else 0x00#8)

/-- `Rcon(j)` (R171): `[RC(j), 0, 0, 0]`; outside 0..9 it raises IndexOutOfRange (R172). -/
def rcon (j : Nat) : Except KseError Word :=
  match rcRom[j]? with
  | some c => .ok (word32 c 0x00#8 0x00#8 0x00#8)
  | none => .error .indexOutOfRange

/-- `XorW(a, b)` (R190): byte-wise exclusive or. -/
def xorW (a b : Word) : Word :=
  word32 (byteAt a 0 ^^^ byteAt b 0) (byteAt a 1 ^^^ byteAt b 1) (byteAt a 2 ^^^ byteAt b 2) (byteAt a 3 ^^^ byteAt b 3)

/-! The stages of the step chain (spec/30_encoding.md R100), each bypassed when its enable bit is 0. -/

/-- Stage ROT. -/
def rotStage (rot : Bool) (t : Word) : Word := if rot then rotWord t else t

/-- Stage SUB. -/
def subStage (table : SboxTable) (sub : Bool) (t : Word) : Word := if sub then subWord table t else t

/-- Stage RCE: exclusive or with `Rcon(j)`, which may raise. -/
def rconStage (rce : Bool) (j : Nat) (t : Word) : Except KseError Word :=
  if rce then
    match rcon j with
    | .ok c => .ok (xorW t c)
    | .error e => .error e
  else .ok t

end Sys2Proof.Machine
end

