-- ==== Sys2Proof/Machine/Schedule.lean ====
section
/-! DEFINITION. The pure functions of the command level: `Expand` (spec/45_expand_steps.md R220) and `GetRoundKey` as a
function of the request alone (spec/46_getroundkey.md R245, R250, R254). -/

namespace Sys2Proof.Machine

/-- The first loop of `Expand`: the first `nk` words are the key split into 4-byte words (R220, R63). -/
def keyWords (key : List Byte) (nk : Nat) : List Word :=
  (List.range nk).map fun i =>
    word32 (key.getD (4 * i) 0) (key.getD (4 * i + 1) 0) (key.getD (4 * i + 2) 0) (key.getD (4 * i + 3) 0)

/-- The two special branches of the second loop (R220): what becomes of `temp` at word index `i`. -/
def transformTemp (table : SboxTable) (nk i : Nat) (temp : Word) : Except KseError Word :=
  if i % nk = 0 then
    match rcon (i / nk - 1) with
    | .ok c => .ok (xorW (subWord table (rotWord temp)) c)
    | .error e => .error e
  else if nk = 8 ∧ i % nk = 4 then .ok (subWord table temp)
  else .ok temp

/-- Word `i` of the schedule from the words before it (R220): `w[i] = XorW(w[i-Nk], temp)`. -/
def nextWord (table : SboxTable) (nk i : Nat) (w : List Word) : Except KseError Word :=
  match transformTemp table nk i (w.getD (i - 1) 0) with
  | .ok temp => .ok (xorW (w.getD (i - nk) 0) temp)
  | .error e => .error e

/-- The second loop of `Expand`: `steps` more words, the next at index `i` (R220). -/
def expandLoop (table : SboxTable) (nk : Nat) : (steps i : Nat) → List Word → Except KseError (List Word)
  | 0, _, w => .ok w
  | n + 1, i, w =>
    match nextWord table nk i w with
    | .ok v => expandLoop table nk n (i + 1) (w ++ [v])
    | .error e => .error e

/-- `Expand(key)` (R220), for a key of 16, 24 or 32 bytes, over the contents of SBOXROM (R6, R160). -/
def expand (table : SboxTable) (key : List Byte) : Except KseError (List Word) :=
  let v := classify key.length
  expandLoop table v.nk (v.nw - v.nk) v.nk (keyWords key v.nk)

/-- `GetRoundKey(key, index)` for every integer `index` (R245, R250, R254): what the command responds. -/
def getRoundKey (table : SboxTable) (key : List Byte) (index : Int) : Response :=
  let v := classify key.length
  if v.var = 3#2 then .err .invalidKeyLength
  else
    match expand table key with
    | .error e => .err e
    | .ok sched =>
      if 0 ≤ index ∧ index < v.nw then
        match sched[index.toNat]? with
        | some word => .ok word
        | none => .err .indexOutOfRange
      else .err .indexOutOfRange

end Sys2Proof.Machine
end

