-- ==== Sys2Proof/Machine/Ops.lean ====
section
/-! DEFINITION. The named operations over the registers, the cache and the response register, the raise of an error
(spec/60_exceptions.md R280, R284) and the taking of a response (spec/46_getroundkey.md R253), which is all the
"return" there is (R286). -/

namespace Sys2Proof.Machine

/-! ## Registers -/

/-- `W[k] <- v; WV[k] <- 1` (R210 to R213, R30). -/
def State.writeW (s : State) (k : Nat) (v : Word) : State :=
  { s with w := s.w.setIfInBounds k v, wv := s.wv.setIfInBounds k true }

/-- `pc <- pc + 1` (R27). -/
def State.advance (s : State) : State := { s with pc := s.pc + 1#6 }

/-- `TEMP <- t` (R31). -/
def State.setTemp (s : State) (t : Word) : State := { s with temp := t }

/-- `RCREG <- Xtime(RCREG)`, only where the generator register exists (R177, R213). -/
def State.stepRcreg (s : State) : State :=
  { s with rcreg := match s.rcImpl with
                    | .xtimeRegister => xtime s.rcreg
                    | .table => s.rcreg }

/-! ## The cache (spec/10_state.md R38 to R41; spec/46_getroundkey.md R249) -/

/-- The bank of a variant code (R39); VAR = 3 selects none. -/
def Cache.bank (c : Cache) (var : BitVec 2) : List Entry :=
  if var = 0#2 then c.bank128 else if var = 1#2 then c.bank192 else if var = 2#2 then c.bank256 else []

/-- Replace the bank of a variant code. -/
def Cache.setBank (c : Cache) (var : BitVec 2) (bank : List Entry) : Cache :=
  if var = 0#2 then { c with bank128 := bank }
  else if var = 1#2 then { c with bank192 := bank }
  else if var = 2#2 then { c with bank256 := bank }
  else c

/-- `CACHE(key)` in the bank of `var`, if the key is there (R38, R247: the whole key value is compared). -/
def Cache.lookup (c : Cache) (var : BitVec 2) (key : List Byte) : Option (List Word) :=
  ((c.bank var).find? (·.key == key)).map (·.sched)

/-- The order entries are listed in: the key read as a number, first byte most significant. -/
def Entry.rank (e : Entry) : Nat := packBytes e.key

/-- Add `key ↦ sched` to a bank, at its place; an entry of the same key is overwritten (R249, R72). -/
def bankInsert (e : Entry) : List Entry → List Entry
  | [] => [e]
  | x :: xs =>
    if e.rank < x.rank then e :: x :: xs
    else if e.key = x.key then e :: xs
    else x :: bankInsert e xs

/-- Remove the victim of draw `n` from a bank (R249): the draw is the free value `Config.victim` (log entry 6). -/
def bankEvict (n : Nat) (bank : List Entry) : List Entry := bank.eraseIdx (Config.victim n % bank.length)

/-- Whether a bank holds CACHE_CAP entries; never when CACHE_CAP is unbounded (R249). -/
def bankFull (cap : Option Nat) (bank : List Entry) : Bool :=
  match cap with
  | none => false
  | some c => decide (c ≤ bank.length)

/-- `Store` on one bank (R249): nothing is stored when CACHE_CAP = 0; a full bank first loses one entry. -/
def bankStore (cap : Option Nat) (n : Nat) (bank : List Entry) (e : Entry) : List Entry :=
  if cap = some 0 then bank
  else if bankFull cap bank then bankInsert e (bankEvict n bank)
  else bankInsert e bank

/-- Whether `Store` draws a victim (R249). -/
def drawsVictim (cap : Option Nat) (bank : List Entry) : Bool := decide (cap ≠ some 0) && bankFull cap bank

/-- `CACHE <- Store(CACHE, key, s)` for the latched key (R249); other banks are never touched. -/
def State.store (s : State) (sched : List Word) : State :=
  { s with
    cache := s.cache.setBank s.var (bankStore s.cacheCap s.draws (s.cache.bank s.var) ⟨s.keyValue, sched⟩)
    draws := if drawsVictim s.cacheCap (s.cache.bank s.var) then s.draws + 1 else s.draws }

/-- The canonical form of one bank (log entry 8): every key has the bank's length, keys strictly rising. -/
def bankWf (keylen : Nat) (bank : List Entry) : Bool :=
  bank.all (fun e => e.key.length == keylen) && decide (bank.Pairwise fun x y => x.rank < y.rank)

/-- The canonical form of the one sparse memory of KSE, the cache. -/
def Memory.wf (c : Cache) : Bool := bankWf 16 c.bank128 && bankWf 24 c.bank192 && bankWf 32 c.bank256

/-! ## Commands: acceptance, response, errors -/

/-- A request is accepted only when BUSY = 0 and RESP.VALID = 0 (R35, R241). -/
def State.ready (s : State) : Bool := !s.busy && !s.resp.valid

/-- Acceptance (R241, R22): KEYLEN, KEY[0..31] and INDEX are loaded together and BUSY <- 1. -/
def State.accept (s : State) (keylen : Byte) (slots : List Byte) (index : Byte) : State :=
  { s with keylen := keylen, key := Vector.ofFn fun k : Fin 32 => slots.getD k.val 0#8, index := index, busy := true }

/-- A request that is not accepted waits at the head of the request channel (R241, R243: "never dropped and never
altered"). Log entry 13. -/
def State.waitAtPort (s : State) (q : Request) : State := { s with port := q :: s.port }

/-- The response action (R252): RESP is written and BUSY <- 0 at the same moment. -/
def State.respond (s : State) (r : Response) : State := { s with resp := Resp.ofResponse r, busy := false }

/-- TAKING AN EXCEPTION: `raise E` (R280, R284). RESP <- (VALID=1, CODE=code(E), WORD=0), BUSY <- 0; nothing is saved,
no pc, no mode, no mask; what earlier lines did stays. -/
def State.raise (s : State) (e : KseError) : State := s.respond (.err e)

/-- HOST takes the response (R253): RESP.VALID <- 0 and the format A word is HOST's. After an error this is all the
return there is: KSE accepts the next request exactly as after `Ok` (R286). -/
def State.takeResponse (s : State) : State :=
  { s with resp := { s.resp with valid := false }, received := s.received ++ [s.resp.wire] }

/-- The reset input (spec/70_reset_and_hazards.md R310 to R312): the state of R311, whatever was going on; a command in
progress is abandoned without a response. SBOXROM is unchanged (R311); HOST and the other parameters are not
reset either (log entry 15). -/
def State.resetInput (s : State) : State :=
  { State.reset with
    port := s.port, host := s.host, received := s.received,
    level := s.level, cacheCap := s.cacheCap, draws := s.draws, rcImpl := s.rcImpl,
    sboxRom := s.sboxRom }

/-- The start of an expansion (R200): pc <- 0, all WV <- 0, RCREG <- 0x01 where it exists; nothing else changes. -/
def State.startExpansion (s : State) : State :=
  { s with
    pc := 0#6
    wv := Vector.replicate 60 false
    rcreg := match s.rcImpl with
             | .xtimeRegister => 0x01#8
             | .table => s.rcreg }

/-- An error inside a step stops the expansion (R214): the error is raised, and a hand-written program, if it was one
that raised it, is over. A program's error is written to RESP even while RESP.VALID = 1: an untaken response of an earlier
command is overwritten. The spec is silent there: DESIGN CHOICE, log entry 14. -/
def State.abortExpansion (s : State) (e : KseError) : State := { s.raise e with program := none }

/-- Lines 7 and 8 of `GetRoundKey` (R245, R250, R251): the index check, then the word of the schedule. -/
def State.answer (s : State) (sched : List Word) : State :=
  if s.index.toNat < s.nw then
    match sched[s.index.toNat]? with
    | some word => s.respond (.ok word)
    | none => s.raise .indexOutOfRange
  else s.raise .indexOutOfRange

/-- The schedule in `W[0..NW-1]` when the sequencer has stopped (R202). -/
def State.builtSchedule (s : State) : List Word := s.w.toList.take s.nw

/-- Lines 5 to 8 after a completed expansion (R245, R248, R249): store the whole schedule, then answer from it. -/
def State.finishMiss (s : State) : State := (s.store s.builtSchedule).answer s.builtSchedule

/-- Lines 1 to 3 of `GetRoundKey` on the latched request (R245 to R248): a bad length is refused first; a hit is
answered from the stored schedule, with no step run; a miss starts an expansion, and BUSY stays 1. -/
def State.frontEnd (s : State) : State :=
  if s.var = 3#2 then s.raise .invalidKeyLength
  else
    match s.cache.lookup s.var s.keyValue with
    | some sched => s.answer sched
    | none => s.startExpansion

/-! ## The step chain, shared by the step instructions (spec/30_encoding.md R100) -/

/-- The key load (LD = 1), legal at pc < NK (R210, R103). -/
def loadKeyWord (s : State) : Host.Outcome State Fault Refusal :=
  if s.pcNat < s.nk then .next (s.writeW s.pcNat (s.readKey (4 * s.pcNat))).advance
  else .refused (.illegalPosition s.pcNat)

/-- The chain (LD = 0), legal at NK <= pc < NW (R100, R103, R211 to R213), its lines in the order of the pseudocode:
read W[pc-1], rotate, substitute, add the constant (which may raise, R214), read W[pc-NK], combine. A step is atomic
(R320). -/
def chainStep (rot sub rce : Bool) (j : Nat) (s : State) : Host.Outcome State Fault Refusal :=
  if s.nk ≤ s.pcNat ∧ s.pcNat < s.nw then
    match s.readW (s.pcNat - 1) with
    | none => .fault (.unwrittenRead (s.pcNat - 1) s.pcNat)
    | some t0 =>
      let t2 := subStage s.sboxRom sub (rotStage rot t0)
      match rconStage rce j t2 with
      | .error e => .next ((s.setTemp t2).abortExpansion e)
      | .ok t3 =>
        match s.readW (s.pcNat - s.nk) with
        | none => .fault (.unwrittenRead (s.pcNat - s.nk) s.pcNat)
        | some back =>
          let done := ((s.setTemp t3).writeW s.pcNat (xorW back t3)).advance
          .next (if rce then done.stepRcreg else done)
  else .refused (.illegalPosition s.pcNat)

/-- How the datapath reads the bits of a step control word (R100). For the four legal opcodes this is the instruction's
own rule; a reserved word never reaches it (R102). -/
def datapath (w : StepWord) (s : State) : Host.Outcome State Fault Refusal :=
  if w.ld then loadKeyWord s else chainStep w.rot w.sub w.rce w.rci s

end Sys2Proof.Machine
end

