-- ==== Sys2Proof/Machine/Steps.lean ====
section
/-! DEFINITION. The meanings of the step instructions (spec/45_expand_steps.md R210 to R214). -/

namespace Sys2Proof.Machine

/-- `KLD` (R210): `W[pc] <- MemRead(KEY, 4*pc, 4); WV[pc] <- 1; pc <- pc + 1`; TEMP is not used. -/
def execKld (s : State) : Host.Outcome State Fault Refusal := loadKeyWord s

/-- `XP` (R211): the chain with no unit enabled. -/
def execXp (s : State) : Host.Outcome State Fault Refusal := chainStep false false false 0 s

/-- `XS` (R212): the chain with SUB. -/
def execXs (s : State) : Host.Outcome State Fault Refusal := chainStep false true false 0 s

/-- `XG j` (R213, R214): the chain with ROT, SUB and RCE; `RCREG <- Xtime(RCREG)` at its end. -/
def execXg (j : Nat) (s : State) : Host.Outcome State Fault Refusal := chainStep true true true j s

/-- Execute a format S word as the sequencer does inside `GETRK` (R201); a reserved word is refused (R102). No format S
word decodes to `GETRK`. -/
def execStepWord (w : StepWord) (s : State) : Host.Outcome State Fault Refusal :=
  match decodeStep w with
  | .ok .kld => execKld s
  | .ok .xp => execXp s
  | .ok .xs => execXs s
  | .ok (.xg j) => execXg j s
  | .ok (.getrk _ _ _) => .refused (.reservedStepWord w)
  | .error _ => .refused (.reservedStepWord w)

/-- The step cycle (R201), for at most `n` steps: while BUSY and pc < NW, execute `StepSel(NK, pc)`. BUSY falls inside
only when a step raises an error (R214). -/
def runExpansion : Nat → State → Host.Outcome State Fault Refusal
  | 0, s => .next s
  | n + 1, s =>
    if s.busy ∧ s.pcNat < s.nw then
      match execStepWord (stepSel s.nk s.pcNat) s with
      | .next t => runExpansion n t
      | .fault f => .fault f
      | .refused r => .refused r
    else .next s

/-- The step level's schedule (R222): start an expansion on the latched key (R200), run the step cycle to its end (R201,
R202), and take `W[0..NW-1]`. -/
def stepLevelSchedule (s : State) : Option (List Word) :=
  match runExpansion s.nw s.startExpansion with
  | .next t => some t.builtSchedule
  | _ => none

end Sys2Proof.Machine
end

