-- ==== Sys2Proof/Machine/GetRk.lean ====
section
/-! DEFINITION. The meaning of `GETRK` (spec/46_getroundkey.md R245): one atomic transition. -/

namespace Sys2Proof.Machine

/-- The miss path once the expansion has been started (R248): NW steps, then store and answer. If a step raised an
error the command has been answered already and nothing is stored (R214, R248). -/
def serveMiss (s : State) : Host.Outcome State Fault Refusal :=
  match runExpansion s.nw s with
  | .next t => .next (if t.busy then t.finishMiss else t)
  | .fault f => .fault f
  | .refused r => .refused r

/-- `GETRK key, index` (R245): acceptance (R241), lines 1 to 3, the miss path if the key is not cached, the response.
While KSE cannot accept, the request waits (R241, R243; log entry 13). -/
def execGetrk (keylen : Byte) (slots : List Byte) (index : Byte) (s : State) : Host.Outcome State Fault Refusal :=
  if s.ready then
    let t := (s.accept keylen slots index).frontEnd
    if t.busy then serveMiss t else .next t
  else .next (s.waitAtPort (encodeRequest keylen slots index))

end Sys2Proof.Machine
end

