-- ==== Sys2Proof/Machine/Dispatch.lean ====
section
/-! DEFINITION. One arm per constructor of Instr, each one call of the instruction's meaning. -/

namespace Sys2Proof.Machine

def exec (i : Instr) (s : State) : Host.Outcome State Fault Refusal :=
  match i with
  | .getrk keylen slots index => Sys2Proof.Machine.execGetrk keylen slots index s
  | .kld => Sys2Proof.Machine.execKld s
  | .xp => Sys2Proof.Machine.execXp s
  | .xs => Sys2Proof.Machine.execXs s
  | .xg j => Sys2Proof.Machine.execXg j s

end Sys2Proof.Machine
end

