-- ==== Sys2Proof/Machine/Agents.lean ====
section
/-! DEFINITION. Who moves: HOST by its script, else KSE (spec/00_scope.md R8; spec/46_getroundkey.md R240 to R243, R253;
spec/45_expand_steps.md R201, R202; spec/70_reset_and_hazards.md R310 to R313). -/

namespace Sys2Proof.Machine

/-- Decode a step control word and execute the instruction; a reserved word is refused (R102, R278). -/
def runStepWord (w : StepWord) (s : State) : Host.Outcome State Fault Refusal :=
  match decodeStep w with
  | .ok i => exec i s
  | .error _ => .refused (.reservedStepWord w)

/-- One move of a hand-written step program (R103, R278; log entry 4): its word at index pc is executed; it is over when
it has no word there, or when pc = NW (R202: the sequencer stops). While KEYLEN selects no variant NW = 0, so the program is
over at once and none of its words is executed or refused; R200 asks for a legal KEYLEN, and the spec does not say what
becomes of a program without one: DESIGN CHOICE, log entry 24. -/
def programMove (words : List StepWord) (s : State) : Host.Outcome State Fault Refusal :=
  if s.pcNat < s.nw then
    match words[s.pcNat]? with
    | some w => runStepWord w s
    | none => .next { s with program := none }
  else .next { s with program := none }

/-- One move of the sequencer inside a command served at the step level (R201, R202): the step `StepSel(NK, pc)`, or, at
pc = NW, the end of the command. -/
def sequencerMove (s : State) : Host.Outcome State Fault Refusal :=
  if s.pcNat < s.nw then runStepWord (stepSel s.nk s.pcNat) s else .next s.finishMiss

/-- KSE serves the request at the head of the request channel (R241): at the command level the whole `GETRK`; at the
step level acceptance and lines 1 to 3 (log entry 3). -/
def serveRequest (q : Request) (s : State) : Host.Outcome State Fault Refusal :=
  match s.level, decodeRequest q with
  | .command, i => exec i s
  | .step, .getrk keylen slots index =>
    if s.ready then .next (s.accept keylen slots index).frontEnd else .next (s.waitAtPort q)
  | .step, i => exec i s

/-- One move of KSE. With nothing to do it waits (R297, R313). While a hand-written step program is loaded its words are
run first: no request at the port is accepted and no sequencer step of a command is taken until the program is over. The
spec is silent there: DESIGN CHOICE, log entry 20. -/
def kseMove (s : State) : Host.Outcome State Fault Refusal :=
  match s.program with
  | some words => programMove words s
  | none =>
    if s.busy then sequencerMove s
    else
      match s.port with
      | [] => .next s
      | q :: qs => serveRequest q { s with port := qs }

/-- One move of the whole machine: HOST's next move, or KSE's when HOST has none to make. HOST waits for a response it
wants to take, and KSE moves meanwhile (R243, R253; log entry 2). -/
def machineMove (s : State) : Host.Outcome State Fault Refusal :=
  match s.host with
  | [] => kseMove s
  | .tick :: moves => kseMove { s with host := moves }
  | .offer q :: moves => .next { s with host := moves, port := s.port ++ [q] }
  | .take :: moves => if s.resp.valid then .next { s.takeResponse with host := moves } else kseMove s
  | .reset :: moves => .next { s.resetInput with host := moves }

end Sys2Proof.Machine
end

