-- ==== Sys2Proof/Machine/Fetch.lean ====
section
/-! DEFINITION. How an instruction comes to be the next one (log entry 12): a request by standing at the head of the
request channel of an idle KSE (spec/46_getroundkey.md R241), a step control word by being the word a loaded step
program has at pc (spec/30_encoding.md R103; spec/95_test_vectors.md section 3). -/

namespace Sys2Proof.Machine

/-- Put a request where the next step serves it, at the command level. -/
def State.withRequest (s : State) (q : Request) : State :=
  { s with
    host := [], program := none, level := .command, busy := false, resp := { s.resp with valid := false },
    port := q :: s.port }

/-- What the first `n` steps of every step program do: `n` key loads (R105, R210). -/
def runKeyLoads : Nat → State → State
  | 0, s => s
  | n + 1, s =>
    match execKld s with
    | .next t => runKeyLoads n t
    | _ => s

/-- A state in which an expansion can be under way: KEYLEN selects a variant (R200: the precondition of an expansion). -/
def State.withVariant (s : State) : State :=
  if s.var = 3#2 then { s with keylen := 16#8 }.startExpansion else s

/-- A pc at which the word's class is emitted (R103, R128): kept if it is one already; else the start of the expansion
for a key load, and the end of the key loads for the other classes. -/
def State.placeFor (s : State) (w : StepWord) : State :=
  match decodeStep w with
  | .ok .kld => if s.pcNat < s.nk then s else s.startExpansion
  | .ok _ => if s.nk ≤ s.pcNat ∧ s.pcNat < s.nw then s else runKeyLoads s.nk s.startExpansion
  | .error _ => if s.pcNat < s.nw then s else s.startExpansion

/-- Load a step program that has the word at pc. -/
def State.withStepWord (s : State) (w : StepWord) : State :=
  let t := s.withVariant.placeFor w
  { t with host := [], busy := false, program := some (List.replicate t.pcNat 0x00#8 ++ [w]) }

/-- Load a whole hand-written step program on a key (spec/95_test_vectors.md section 3): the latch, the start action of
R200, the words. -/
def State.withProgram (s : State) (key : List Byte) (words : List StepWord) : State :=
  { ((s.accept (BitVec.ofNat 8 key.length) key 0#8).startExpansion) with busy := false, program := some words }

/-- The instruction whose bits are `w` (numbered as spec/opcode_table.json does), where the next step fetches it. -/
def State.fetchNext (s : State) (nbits w : Nat) : State :=
  if nbits = 272 then s.withRequest (BitVec.ofNat 272 w) else s.withStepWord (BitVec.ofNat 8 w)

end Sys2Proof.Machine
end

