-- ==== Sys2Proof/Machine/Step.lean ====
section
/-! DEFINITION. One step of the machine, and the loader the HOST of the pipeline asks for. -/

namespace Sys2Proof.Machine

/-- One step: one move of HOST or of KSE. -/
def step (s : State) : Host.Outcome State Fault Refusal := machineMove s

/-- The state in which the very next step fetches and runs the instruction whose bits are `w` (log entry 12). -/
def State.withFetchWord (s : State) (nbits w : Nat) : State := s.fetchNext nbits w

end Sys2Proof.Machine
end

