-- ==== Sys2Proof/Machine/Assembler.lean ====
section
/-! DEFINITION. The assembler syntax and the pseudo-instructions (spec/30_encoding.md R106, R107). -/

namespace Sys2Proof.Machine

/-- `GETRK <key>, <index>` (R93, R106): slots from the key's length on are written 00; of a key longer than 32 bytes only
the length is encoded. R106 has no key of more than 255 bytes: of one, the length modulo 256 is taken (DESIGN CHOICE, log
entry 23). -/
def getrkOf (key : List Byte) (index : Byte) : Instr :=
  .getrk (BitVec.ofNat 8 key.length)
    (if key.length ≤ 32 then key ++ List.replicate (32 - key.length) 0x00#8 else List.replicate 32 0x00#8) index

/-- `EXPAND <nk>` (R107): the whole step program of the variant, `StepSel(nk, 0)` to `StepSel(nk, NW-1)`. For an `nk` that
is not 4, 6 or 8, which R107 does not have, it is empty (DESIGN CHOICE, log entry 22). -/
def expandProgram (nk : Nat) : List StepWord := (List.range (classify (4 * nk)).nw).map (stepSel nk)

/-- `GETROUND <key>, <r>` (R107): the four requests of round `r`. It is legal for `0 <= r <= Nr`; the spec does not say
what becomes of another `r`, and the four requests are built all the same, the index modulo 256 (DESIGN CHOICE, log entry
22). -/
def getRound (key : List Byte) (r : Nat) : List Instr :=
  (List.range 4).map fun k => getrkOf key (BitVec.ofNat 8 (4 * r + k))

/-- The hexadecimal digit of a number below 16. -/
def hexDigit (n : Nat) : Char := "0123456789abcdef".toList.getD n '0'

/-- Two hexadecimal digits per byte (R11, R106). -/
def hexBytes (bytes : List Byte) : String :=
  String.ofList (bytes.flatMap fun b => [hexDigit (b.toNat / 16), hexDigit (b.toNat % 16)])

/-- The name of an error (R106). -/
def errorText : KseError → String
  | .invalidKeyLength => "InvalidKeyLength"
  | .indexOutOfRange => "IndexOutOfRange"
  | .invalidWordLength => "InvalidWordLength"

/-- An instruction in assembler syntax (R106). A key longer than 32 bytes is written in full, as R106 says, but a request
does not carry its bytes from 32 on: they are written 00 here (DESIGN CHOICE, log entry 21), so that the text has the
key's length. -/
def asmText : Instr → String
  | .getrk keylen slots index =>
    "GETRK " ++ hexBytes ((slots ++ List.replicate (keylen.toNat - 32) 0x00#8).take keylen.toNat) ++ ", " ++ toString index.toNat
  | .kld => "KLD"
  | .xp => "XP"
  | .xs => "XS"
  | .xg j => "XG " ++ toString j

/-- A response in assembler syntax (R106). -/
def responseText : Response → String
  | .ok w => "OK " ++ hexBytes ((List.range 4).map fun k => w.extractLsb' (24 - 8 * k) 8)
  | .err e => "ERR " ++ errorText e

end Sys2Proof.Machine
end

