-- ==== Sys2Proof/Safety.lean ====
section
/-! DEFINITION. What counts as a good state and a safe run of KSE, and the frames, in the terms the statements use. -/

namespace Sys2Proof.Machine

/-! ## The cache invariants (spec/10_state.md R40, R41) -/

/-- R40(c): every cached schedule is `Expand` of its key, word for word. -/
def CacheRight (table : SboxTable) (c : Cache) : Prop :=
  ∀ var : BitVec 2, ∀ e ∈ c.bank var, expand table e.key = .ok e.sched

/-- R41: no bank holds more than CACHE_CAP entries. -/
def WithinCap (cap : Option Nat) (c : Cache) : Prop :=
  ∀ n, cap = some n → ∀ var : BitVec 2, (c.bank var).length ≤ n

/-- What a response waiting in RESP may be (spec/30_encoding.md R97): not code 3, and no word beside an error. While
VALID = 0 nothing is asked: CODE and WORD are then unspecified (spec/70_reset_and_hazards.md R311). -/
def RespFormed (r : Resp) : Prop := r.valid = true → r.code ≠ 3#2 ∧ (r.code ≠ 0#2 → r.word = 0#32)

/-! ## The parameter SBOX (spec/42_subword_sbox.md R153, R154) -/

/-- The eight entries the source settles: the four it states and the four its known answer gives (R154). -/
def SettledEntries (table : SboxTable) : Prop :=
  sbox table 0x00#8 = 0x63#8 ∧ sbox table 0x01#8 = 0x7C#8 ∧ sbox table 0x02#8 = 0x77#8 ∧ sbox table 0x03#8 = 0x7B#8 ∧
    sbox table 0x0c#8 = 0xfe#8 ∧ sbox table 0x0d#8 = 0xd7#8 ∧ sbox table 0x0e#8 = 0xab#8 ∧ sbox table 0x0f#8 = 0x76#8

/-- What the source asks of SBOX (R153): a permutation of the bytes with the entries it settles. -/
def SboxContract (table : SboxTable) : Prop := Function.Bijective (sbox table) ∧ SettledEntries table

/-- The bytes at which the step of word index `i` looks SBOXROM up, on the word before it (R212, R213, R220). -/
def lookedUp (nk i : Nat) (prev : Word) : List Byte :=
  if i % nk = 0 ∨ (nk = 8 ∧ i % nk = 4) then bytes4 prev else []

/-! ## An expansion under way (spec/45_expand_steps.md R200 to R202; spec/10_state.md R30) -/

/-- How many `XG` steps stand before position `i` of a step program (spec/40_variant_select.md R129). -/
def xgStepsBefore (nk i : Nat) : Nat := (i - 1) / nk

/-- What holds between two steps of an expansion started by a `GETRK`: the key's length is legal and the key is not
cached (R200); the marks are exactly those of `W[0..pc-1]` (R30), which hold the schedule's words (R222); where the
generator register exists it has been doubled once per `XG` step (spec/43_rcon.md R177). -/
structure ExpansionUnderWay (s : State) : Prop where
  noProgram : s.program = none
  noResponse : s.resp.valid = false
  legalLength : s.var ≠ 3#2
  missed : s.cache.lookup s.var s.keyValue = none
  pcWithin : s.pcNat ≤ s.nw
  marks : ∀ i, i < 60 → s.wv[i]? = some (decide (i < s.pcNat))
  built : ∀ sched, expand s.sboxRom s.keyValue = .ok sched → ∀ i, i < s.pcNat → s.w[i]? = sched[i]?
  generator : s.rcImpl = .xtimeRegister → s.rcreg = xtime^[xgStepsBefore s.nk s.pcNat] 0x01#8

/-- The invariant of the machine: the step counter stays in 0..60 (R26, R27), the cache invariants hold (R40, R41) and
the cache is in its canonical form (log entry 8), RESP is well formed (R97), and while BUSY an expansion is under way. -/
structure Inv (s : State) : Prop where
  pcRange : s.pcNat ≤ 60
  cacheForm : Memory.wf s.cache = true
  cacheRight : CacheRight s.sboxRom s.cache
  cacheCap : WithinCap s.cacheCap s.cache
  respFormed : RespFormed s.resp
  running : s.busy = true → ExpansionUnderWay s

/-! ## Frames -/

/-- `t` differs from `s` in W, WV, pc, TEMP and RCREG at most: what a completed step instruction may write (R210 to
R213). KEYLEN, KEY, INDEX, CACHE, RESP, BUSY, the HOST's and the model's own fields are as before. -/
def OnlyDatapathChanged (s t : State) : Prop :=
  t = { s with w := t.w, wv := t.wv, pc := t.pc, temp := t.temp, rcreg := t.rcreg }

/-- `W[k]` has become `v`, its mark is set, and every other word and mark is as before. -/
def WroteWord (s t : State) (k : Nat) (v : Word) : Prop :=
  t.w[k]? = some v ∧ t.wv[k]? = some true ∧ ∀ i, i ≠ k → t.w[i]? = s.w[i]? ∧ t.wv[i]? = s.wv[i]?

/-- The latch holds the request's KEYLEN, slots and INDEX (spec/10_state.md R22). -/
def Latched (t : State) (keylen : Byte) (slots : List Byte) (index : Byte) : Prop :=
  t.keylen = keylen ∧ t.key.toList = slots ∧ t.index = index

/-- The fields no command writes: the request channel, HOST's script and its record, the level, a loaded program and the
parameters. -/
def SurroundingsUnchanged (s t : State) : Prop :=
  t.port = s.port ∧ t.host = s.host ∧ t.received = s.received ∧ t.level = s.level ∧ t.program = s.program ∧
    t.cacheCap = s.cacheCap ∧ t.rcImpl = s.rcImpl ∧ t.sboxRom = s.sboxRom

/-- The registers of the sequencer and the datapath are as before: no step ran. -/
def SequencerUntouched (s t : State) : Prop :=
  t.pc = s.pc ∧ t.temp = s.temp ∧ t.w = s.w ∧ t.wv = s.wv ∧ t.rcreg = s.rcreg

/-! ## Commands and runs -/

/-- What KSE responds to a request (spec/46_getroundkey.md R254): a function of the request alone, on a machine whose
parameter SBOX is `table`. -/
def respondTo (table : SboxTable) (keylen : Byte) (slots : List Byte) (index : Byte) : Response :=
  if (classify keylen.toNat).var = 3#2 then .err .invalidKeyLength
  else getRoundKey table (requestKey keylen slots) (index.toNat : Int)

/-- The response to a request word. -/
def respondToWord (table : SboxTable) (q : Request) : Response :=
  match decodeRequest q with
  | .getrk keylen slots index => respondTo table keylen slots index
  | _ => .err .invalidKeyLength

/-- A position where `XP`, `XS` and `XG` are legal (spec/30_encoding.md R103). -/
def ChainLegal (s : State) : Prop := s.nk ≤ s.pcNat ∧ s.pcNat < s.nw

/-- Both source words of a chain step hold a value (spec/10_state.md R30). -/
def SourcesWritten (s : State) : Prop := s.wv[s.pcNat - 1]? = some true ∧ s.wv[s.pcNat - s.nk]? = some true

/-- A run of the machine is safe while no step faults or refuses. -/
def StepsOn (s : State) : Prop := ∃ t, step s = .next t

end Sys2Proof.Machine
end

