-- ==== Sys2Proof/Certificates/Slice0/Obligations.lean ====
section
/-! DEFINITION. The statements for the provers. Each docstring names the rules of spec/ it formalises, or says what of it
is the model's own choice. -/

open Sys2Proof Sys2Proof.Machine

/-! ## Reset and the HOST -/

/-- R29: the cache is empty after reset; no key of any bank has a schedule. -/
def Obligations.ResetCacheIsEmpty : Prop :=
  ∀ (var : BitVec 2) (key : List Byte), State.reset.cache.bank var = [] ∧ State.reset.cache.lookup var key = none

/-- R44, R311, R313: after reset BUSY, RESP.VALID, pc and every WV are 0, KSE is ready for a request, and with none there
it waits. (The values of the unspecified registers are log entry 1's and no clause is about them.) -/
def Obligations.ResetLeavesKseIdle : Prop :=
  State.reset.busy = false ∧ State.reset.resp.valid = false ∧ State.reset.pcNat = 0 ∧
    (∀ i, i < 60 → State.reset.wv[i]? = some false) ∧ State.reset.ready = true ∧
    step State.reset = .next State.reset

/-- R311, R312: whatever is going on, asserting reset empties the cache, clears BUSY, RESP.VALID, pc and every WV; the
command in progress produces no response; SBOXROM is unchanged. (That requests not yet accepted stay at the port, and
that the level and the other parameters stay, is the model's choice, log entry 15.) -/
def Obligations.ResetAbandonsTheCommand : Prop :=
  ∀ (s : State) (moves : List HostMove), s.host = .reset :: moves →
    ∃ t, step s = .next t ∧ (∀ var : BitVec 2, t.cache.bank var = []) ∧ t.busy = false ∧ t.resp.valid = false ∧
      t.pcNat = 0 ∧ (∀ i, i < 60 → t.wv[i]? = some false) ∧ t.program = none ∧
      t.received = s.received ∧ t.port = s.port ∧ t.host = moves ∧
      t.level = s.level ∧ t.cacheCap = s.cacheCap ∧ t.rcImpl = s.rcImpl ∧ t.sboxRom = s.sboxRom

/-- R253, R286: taking a response, also an error's, clears RESP.VALID, hands HOST the format A word, changes nothing else,
and leaves KSE ready when it is not busy. -/
def Obligations.TakingTheResponseFreesKse : Prop :=
  ∀ (s : State) (moves : List HostMove), s.host = .take :: moves → s.resp.valid = true →
    ∃ t, step s = .next t ∧ t = { s with host := moves, resp := t.resp, received := t.received } ∧
      t.resp.valid = false ∧ t.resp.code = s.resp.code ∧ t.resp.word = s.resp.word ∧
      t.received = s.received ++ [s.resp.code ++ s.resp.word] ∧ (s.busy = false → t.ready = true)

/-- R241, R243: a request met while KSE is busy or a response is untaken is not accepted, not dropped and not altered: it
stands at the head of the request channel, and nothing else changes. -/
def Obligations.UnacceptedRequestWaits : Prop :=
  ∀ (s : State) (q : Request), s.ready = false →
    exec (decodeRequest q) s = .next { s with port := q :: s.port }

/-- R241: while a response is untaken, KSE's step leaves the waiting requests as they are, at either level. -/
def Obligations.UntakenResponseBlocksAcceptance : Prop :=
  ∀ s : State, s.host = [] → s.program = none → s.busy = false → s.resp.valid = true → step s = .next s

/-- R297, R313: idle, with no request at the port, KSE waits. -/
def Obligations.IdleKseWaits : Prop :=
  ∀ s : State, s.host = [] → s.program = none → s.busy = false → s.port = [] → step s = .next s

/-- R22: from acceptance until the response is produced KEYLEN, KEY and INDEX do not change (reset apart). -/
def Obligations.LatchHoldsWhileBusy : Prop :=
  ∀ s t : State, s.busy = true → (∀ moves, s.host ≠ .reset :: moves) → step s = .next t →
    t.keylen = s.keylen ∧ t.key = s.key ∧ t.index = s.index

/-! ## Encodings -/

/-- R91, R93, R98, R99, R101: decoding the word of a well-formed instruction gives it back, every operand at every value
the encoding admits. -/
def Obligations.DecodeOfEncodeIsTheInstruction : Prop := ∀ i : Instr, i.wf = true → decode (encode i) = .ok i

/-- R91, R92, R99, R102: a word that decodes is the word of the instruction it decodes to, which is well formed: no bit
of an accepted word is dropped. -/
def Obligations.EncodeOfDecodeIsTheWord : Prop :=
  ∀ (c : CodeWord) (i : Instr), decode c = .ok i → i.wf = true ∧ encode i = c

/-- R92: every request word decodes to `GETRK`, with KEYLEN bits 271..264, slot `k` bits 263-8k..256-8k, INDEX bits
7..0 (R91). -/
def Obligations.EveryRequestIsGetrk : Prop :=
  ∀ q : Request, ∃ keylen slots index, decode (.request q) = .ok (.getrk keylen slots index) ∧
    keylen.toNat = q.toNat / 2 ^ 264 ∧ index.toNat = q.toNat % 2 ^ 8 ∧ slots.length = 32 ∧
    ∀ k, k < 32 → (slots.getD k 0).toNat = q.toNat / 2 ^ (256 - 8 * k) % 2 ^ 8

/-- Words written out from R91, R99, R101 and R108 decode to the instructions they stand for. -/
def Obligations.SpecWordsDecode : Prop :=
  decode (.step 0b10000000#8) = .ok .kld ∧ decode (.step 0b00000000#8) = .ok .xp ∧
    decode (.step 0b00100000#8) = .ok .xs ∧ decode (.step 0b01110000#8) = .ok (.xg 0) ∧
    decode (.step 0b01111001#8) = .ok (.xg 9) ∧ decode (.step 0b01111010#8) = .ok (.xg 10) ∧
    decode (.request 0x10000102030405060708090a0b0c0d0e0f0000000000000000000000000000000004#272) =
      .ok (.getrk 0x10#8 ([0x00, 0x01, 0x02, 0x03, 0x04, 0x05, 0x06, 0x07, 0x08, 0x09, 0x0a, 0x0b, 0x0c, 0x0d, 0x0e, 0x0f] ++
        List.replicate 16 0x00#8) 0x04#8)

/-- R102: exactly 237 of the 256 format S words are reserved, in three groups: LD with another bit set; a combination of
ROT, SUB, RCE other than 000, 010, 111; RCI not 0 without RCE. -/
def Obligations.ReservedStepWords : Prop :=
  ((List.range 256).filter fun n => (decodeStep (BitVec.ofNat 8 n)).toOption.isNone).length = 237 ∧
    ∀ w : StepWord,
      (decodeStep w = .error .loadWithOtherBits ↔ w.getLsbD 7 = true ∧ w ≠ 0x80#8) ∧
      (decodeStep w = .error .unitEnables ↔ w.getLsbD 7 = false ∧
        (w >>> 4 = 1#8 ∨ w >>> 4 = 3#8 ∨ w >>> 4 = 4#8 ∨ w >>> 4 = 5#8 ∨ w >>> 4 = 6#8)) ∧
      (decodeStep w = .error .constantIndexWithoutEnable ↔ (w >>> 4 = 0#8 ∨ w >>> 4 = 2#8) ∧ w &&& 0x0F#8 ≠ 0#8)

/-- R102, R278: a hand-written step program that comes to a reserved word is refused there, by name. -/
def Obligations.ReservedStepWordRefused : Prop :=
  ∀ (s : State) (words : List StepWord) (w : StepWord) (r : DecodeReject), s.host = [] → s.program = some words →
    s.pcNat < s.nw → words[s.pcNat]? = some w → decodeStep w = .error r → step s = .refused (.reservedStepWord w)

/-- R109: no two rows of the opcode map match one word. -/
def Obligations.OpcodeRowsDoNotOverlap : Prop :=
  ∀ w : StepWord, (stepRows.filter (·.matchesWord w)).length ≤ 1

/-- R95, R96, R97: a format A word is read back as the response it was made from; a word that is read as a response is
that response's word; code 3 and a word beside an error aside, every word is a response. -/
def Obligations.ResponseWordsReadBack : Prop :=
  (∀ r : Response, decodeResponse r.encode = some r ∧ r.encode.toNat = r.code.toNat * 2 ^ 32 + r.word.toNat) ∧
    ∀ (a : ResponseWord) (r : Response), decodeResponse a = some r → r.encode = a

/-! ## The units -/

/-- R141: `RotWord` is the rotation left by 8 bits. -/
def Obligations.RotWordRotatesLeftByEight : Prop :=
  ∀ v : Word, (rotWord v).toNat = v.toNat * 2 ^ 8 % 2 ^ 32 + v.toNat / 2 ^ 24 ∧
    rotWord v = v.extractLsb' 0 24 ++ v.extractLsb' 24 8

/-- R143: `RotWord` is a bijection, four times it is the identity, its inverse rotates the other way, it commutes with
`SubWord` and distributes over `XorW`. -/
def Obligations.RotWordLaws : Prop :=
  Function.Bijective rotWord ∧ (∀ w, rotWord (rotWord (rotWord (rotWord w))) = w) ∧
    (∀ b0 b1 b2 b3 : Byte, rotWord (word32 b3 b0 b1 b2) = word32 b0 b1 b2 b3) ∧
    (∀ (table : SboxTable) (w : Word), subWord table (rotWord w) = rotWord (subWord table w)) ∧
    ∀ a b, rotWord (xorW a b) = xorW (rotWord a) (rotWord b)

/-- R159: over every table that is a permutation of the bytes `SubWord` is a bijection on Words; over every table it
commutes with `RotWord`, both being the four substituted bytes rotated; over every table with `SBOX(0) = 0x63` it does
not distribute over `XorW`. -/
def Obligations.SubWordLaws : Prop :=
  (∀ table : SboxTable, Function.Bijective (sbox table) → Function.Bijective (subWord table)) ∧
    (∀ (table : SboxTable) (w : Word), subWord table (rotWord w) = rotWord (subWord table w)) ∧
    (∀ (table : SboxTable) (b0 b1 b2 b3 : Byte), subWord table (rotWord (word32 b0 b1 b2 b3)) =
      word32 (sbox table b1) (sbox table b2) (sbox table b3) (sbox table b0)) ∧
    ∀ table : SboxTable, sbox table 0x00#8 = 0x63#8 →
      ∃ a b, subWord table (xorW a b) ≠ xorW (subWord table a) (subWord table b)

/-- R153, R154: the model's table (R156: log entry 9), which SBOXROM holds at reset, meets what the source asks of the
parameter SBOX: a permutation of the bytes with the eight entries the source settles. -/
def Obligations.SboxIsAPermutation : Prop :=
  State.reset.sboxRom = standardSbox ∧ SboxContract standardSbox

/-- R43, R78: no step, of KSE or of HOST, changes SBOXROM; nor does one change the other parameters or the level. -/
def Obligations.ParametersNeverChange : Prop :=
  ∀ s t : State, step s = .next t →
    t.sboxRom = s.sboxRom ∧ t.cacheCap = s.cacheCap ∧ t.rcImpl = s.rcImpl ∧ t.level = s.level

/-- R190, R191: `XorW` is the 32-bit exclusive or, byte lane by byte lane. -/
def Obligations.XorWIsBitwise : Prop :=
  ∀ a b : Word, xorW a b = a ^^^ b ∧ ∀ k, k < 4 → byteAt (xorW a b) k = byteAt a k ^^^ byteAt b k

/-- R170, R171, R172, R176: the ten round constants are the successive doublings of 0x01; `Rcon(j)` has the constant as
its high byte and zeros below; outside 0..9 it raises IndexOutOfRange. -/
def Obligations.RoundConstantsAreDoublings : Prop :=
  rcRom = [0x01, 0x02, 0x04, 0x08, 0x10, 0x20, 0x40, 0x80, 0x1B, 0x36] ∧
    (∀ j, j < 10 → ∃ c : Byte, rcRom[j]? = some c ∧ c = xtime^[j] 0x01#8 ∧ rcon j = .ok (c ++ 0x000000#24)) ∧
    ∀ j, 10 ≤ j → rcon j = .error .indexOutOfRange

/-! ## The variant selector -/

/-- R120: the classification table; every length but 16, 24 and 32 is no variant. -/
def Obligations.ClassificationTable : Prop :=
  classify 16 = ⟨0#2, 4, 10, 44⟩ ∧ classify 24 = ⟨1#2, 6, 12, 52⟩ ∧ classify 32 = ⟨2#2, 8, 14, 60⟩ ∧
    ∀ n, n ≠ 16 → n ≠ 24 → n ≠ 32 → classify n = ⟨3#2, 0, 0, 0⟩

/-- R128, R129: for every variant and every position the selector emits a legal opcode at a legal position, `KLD` exactly
for i < NK, and an `XG` only with the next constant index i div NK - 1, at most 9. -/
def Obligations.SelectorEmitsLegalSteps : Prop :=
  ∀ keylen, (classify keylen).var ≠ 3#2 → ∀ i, i < (classify keylen).nw →
    (i < (classify keylen).nk ∧ decodeStep (stepSel (classify keylen).nk i) = .ok .kld) ∨
    ((classify keylen).nk ≤ i ∧
      (decodeStep (stepSel (classify keylen).nk i) = .ok .xp ∨
       (decodeStep (stepSel (classify keylen).nk i) = .ok .xs ∧ keylen = 32 ∧ i % 8 = 4) ∨
       (i % (classify keylen).nk = 0 ∧ i / (classify keylen).nk - 1 ≤ 9 ∧
        decodeStep (stepSel (classify keylen).nk i) = .ok (.xg (i / (classify keylen).nk - 1)))))

/-! ## The step instructions -/

/-- R210: `KLD` is the word 0x80; at pc < NK it completes: W[pc] becomes the four key bytes from index 4*pc, first byte
high, its mark is set, pc advances by one, and nothing else changes; at pc >= NK it is refused (R103). (That it is refused
at every pc while KEYLEN selects no variant, NK = 0 there being a filler, is the model's choice: log entry 24.) -/
def Obligations.KldLoadsTheKeyWord : Prop :=
  decode (.step 0b10000000#8) = .ok .kld ∧
  (∀ s : State, s.pcNat < s.nk →
    ∃ (t : State) (b0 b1 b2 b3 : Byte), exec .kld s = .next t ∧
      s.key[4 * s.pcNat]? = some b0 ∧ s.key[4 * s.pcNat + 1]? = some b1 ∧
      s.key[4 * s.pcNat + 2]? = some b2 ∧ s.key[4 * s.pcNat + 3]? = some b3 ∧
      WroteWord s t s.pcNat (b0 ++ b1 ++ b2 ++ b3) ∧ t.pcNat = s.pcNat + 1 ∧
      t.temp = s.temp ∧ t.rcreg = s.rcreg ∧ OnlyDatapathChanged s t) ∧
  ∀ s : State, s.nk ≤ s.pcNat → exec .kld s = .refused (.illegalPosition s.pcNat)

/-- R211: `XP` is the word 0x00; at a legal position with both sources written it completes: TEMP becomes W[pc-1], W[pc]
becomes W[pc-NK] ^ TEMP, its mark is set, pc advances by one, and nothing else changes; at pc < NK it is refused. -/
def Obligations.XpCombinesTheSources : Prop :=
  decode (.step 0b00000000#8) = .ok .xp ∧
  (∀ (s : State) (back prev : Word), ChainLegal s → SourcesWritten s →
    s.w[s.pcNat - s.nk]? = some back → s.w[s.pcNat - 1]? = some prev →
    ∃ t, exec .xp s = .next t ∧ WroteWord s t s.pcNat (back ^^^ prev) ∧ t.temp = prev ∧
      t.pcNat = s.pcNat + 1 ∧ t.rcreg = s.rcreg ∧ OnlyDatapathChanged s t) ∧
  ∀ s : State, s.pcNat < s.nk → exec .xp s = .refused (.illegalPosition s.pcNat)

/-- R212: `XS` is the word 0x20; at a legal position with both sources written it completes, for every NK: TEMP becomes
SubWord(W[pc-1]), with no rotation and no constant, W[pc] becomes W[pc-NK] ^ TEMP, its mark is set, pc advances by one,
and nothing else changes. -/
def Obligations.XsSubstitutes : Prop :=
  decode (.step 0b00100000#8) = .ok .xs ∧
  ∀ (s : State) (back prev : Word), ChainLegal s → SourcesWritten s →
    s.w[s.pcNat - s.nk]? = some back → s.w[s.pcNat - 1]? = some prev →
    ∃ t, exec .xs s = .next t ∧ WroteWord s t s.pcNat (back ^^^ subWord s.sboxRom prev) ∧ t.temp = subWord s.sboxRom prev ∧
      t.pcNat = s.pcNat + 1 ∧ t.rcreg = s.rcreg ∧ OnlyDatapathChanged s t

/-- R213: `XG j` is the word 0x70 + j, for j in 0..15; at a legal position with both sources written and j in 0..9 it
completes: TEMP becomes SubWord(RotWord(W[pc-1])) ^ Rcon(j), W[pc] becomes W[pc-NK] ^ TEMP, its mark is set, pc advances
by one, RCREG is doubled where it exists, and nothing else changes; with j >= 10 it raises IndexOutOfRange (R214). (That a
raise in a hand-written program, or over an untaken response, writes RESP is the model's choice: log entry 14.) -/
def Obligations.XgStartsTheRound : Prop :=
  (∀ j, j < 16 → decode (.step (0b01110000#8 + BitVec.ofNat 8 j)) = .ok (.xg j)) ∧
  (∀ (s : State) (back prev : Word) (j : Nat) (c : Byte), ChainLegal s → SourcesWritten s →
    s.w[s.pcNat - s.nk]? = some back → s.w[s.pcNat - 1]? = some prev → rcRom[j]? = some c →
    ∃ t, exec (.xg j) s = .next t ∧
      WroteWord s t s.pcNat (back ^^^ (subWord s.sboxRom (rotWord prev) ^^^ (c ++ 0x000000#24))) ∧
      t.temp = subWord s.sboxRom (rotWord prev) ^^^ (c ++ 0x000000#24) ∧ t.pcNat = s.pcNat + 1 ∧
      (s.rcImpl = .xtimeRegister → t.rcreg = xtime s.rcreg) ∧ (s.rcImpl = .table → t.rcreg = s.rcreg) ∧
      OnlyDatapathChanged s t) ∧
  ∀ (s : State) (j : Nat), ChainLegal s → SourcesWritten s → 10 ≤ j →
    ∃ t, exec (.xg j) s = .next t ∧ t.resp = ⟨true, 2#2, 0#32⟩

/-- R172, R214, R284: `XG j` with j >= 10 raises IndexOutOfRange: RESP <- (1, 2, 0), BUSY <- 0; W, WV, pc, RCREG and the
cache are as before, the expansion is over. (That a hand-written program is dropped, that an
untaken response is overwritten, and that TEMP keeps the substituted word, are the model's reading: log entries 14 and 16.) -/
def Obligations.XgConstantOutOfRangeRaises : Prop :=
  ∀ (s : State) (prev : Word) (j : Nat), ChainLegal s → s.wv[s.pcNat - 1]? = some true →
    s.w[s.pcNat - 1]? = some prev → 10 ≤ j →
    ∃ t, exec (.xg j) s = .next t ∧ t.resp = ⟨true, 2#2, 0#32⟩ ∧ t.busy = false ∧ t.program = none ∧
      t.temp = subWord s.sboxRom (rotWord prev) ∧
      t = { s with resp := t.resp, busy := t.busy, program := t.program, temp := t.temp }

/-- R103, R278: `KLD` at pc >= NK and `XP`, `XS`, `XG j` outside NK <= pc < NW are refused. (At pc >= NW it is log entry
19's reading; that every pc is illegal while KEYLEN selects no variant is the model's choice, log entry 24.) -/
def Obligations.IllegalPositionRefused : Prop :=
  ∀ (s : State) (j : Nat),
    (s.nk ≤ s.pcNat → exec .kld s = .refused (.illegalPosition s.pcNat)) ∧
    (¬ChainLegal s → exec .xp s = .refused (.illegalPosition s.pcNat) ∧
      exec .xs s = .refused (.illegalPosition s.pcNat) ∧ exec (.xg j) s = .refused (.illegalPosition s.pcNat))

/-- R283: a step that reads an unmarked word faults and names the word and the pc. (That W[pc-1] is read first, and the
constant of `XG` before W[pc-NK], is read from the order of the lines of R100 and R211 to R213: log entry 16.) -/
def Obligations.UnwrittenSourceFaults : Prop :=
  ∀ (s : State) (j : Nat), ChainLegal s → ∀ i ∈ [Instr.xp, Instr.xs, Instr.xg j],
    (s.wv[s.pcNat - 1]? = some false → exec i s = .fault (.unwrittenRead (s.pcNat - 1) s.pcNat)) ∧
    (s.wv[s.pcNat - 1]? = some true → s.wv[s.pcNat - s.nk]? = some false → (i = .xg j → j < 10) →
      exec i s = .fault (.unwrittenRead (s.pcNat - s.nk) s.pcNat))

/-- R100: for every format S word that decodes, the datapath formula on its bits is the decoded instruction. -/
def Obligations.DatapathFormulaIsTheInstruction : Prop :=
  ∀ (w : StepWord) (i : Instr) (s : State), decodeStep w = .ok i → datapath w s = exec i s

/-- R61: no step instruction reaches KEY for writing, CACHE, the request channel or HOST; nor does it write KEYLEN or
INDEX. -/
def Obligations.StepInstructionsStayInTheDatapath : Prop :=
  ∀ (i : Instr) (s t : State), (∀ a b c, i ≠ .getrk a b c) → exec i s = .next t →
    t.keylen = s.keylen ∧ t.key = s.key ∧ t.index = s.index ∧ t.cache = s.cache ∧ t.draws = s.draws ∧
      t.port = s.port ∧ t.host = s.host ∧ t.received = s.received ∧ t.cacheCap = s.cacheCap ∧ t.rcImpl = s.rcImpl ∧
      t.sboxRom = s.sboxRom ∧ t.level = s.level ∧ (t.pcNat = s.pcNat + 1 ∨ t.pcNat = s.pcNat)

/-! ## Expand -/

/-- R221: for every key of legal length, over every table, `Expand` succeeds with exactly 4*(Nr+1) words, the first Nk of
which are the key; and over every table with the eight settled entries it gives the known answer of the source. -/
def Obligations.ExpandLengthAndPrefix : Prop :=
  (∀ (table : SboxTable) (key : List Byte), (classify key.length).var ≠ 3#2 →
    ∃ sched, expand table key = .ok sched ∧ sched.length = 4 * ((classify key.length).nr + 1) ∧
      ∀ i, i < (classify key.length).nk → ∃ b0 b1 b2 b3 : Byte,
        key[4 * i]? = some b0 ∧ key[4 * i + 1]? = some b1 ∧ key[4 * i + 2]? = some b2 ∧ key[4 * i + 3]? = some b3 ∧
          sched[i]? = some (b0 ++ b1 ++ b2 ++ b3)) ∧
    ∀ table : SboxTable, SettledEntries table →
      ∃ sched, expand table
          [0x00, 0x01, 0x02, 0x03, 0x04, 0x05, 0x06, 0x07, 0x08, 0x09, 0x0a, 0x0b, 0x0c, 0x0d, 0x0e, 0x0f] = .ok sched ∧
        (sched.drop 4).take 4 = [0xd6aa74fd#32, 0xd2af72fa#32, 0xdaa678f1#32, 0xd6ab76fe#32]

/-- R220: every later word of the schedule obeys the recurrence with its two special branches, over every table. -/
def Obligations.ExpandObeysTheRecurrence : Prop :=
  ∀ (table : SboxTable) (key : List Byte) (sched : List Word) (nk i : Nat) (back prev : Word),
    (classify key.length).var ≠ 3#2 → nk = (classify key.length).nk → expand table key = .ok sched →
    nk ≤ i → i < (classify key.length).nw → sched[i - nk]? = some back → sched[i - 1]? = some prev →
    (i % nk = 0 → ∃ c : Byte, rcRom[i / nk - 1]? = some c ∧
      sched[i]? = some (back ^^^ (subWord table (rotWord prev) ^^^ (c ++ 0x000000#24)))) ∧
    (nk = 8 → i % nk = 4 → sched[i]? = some (back ^^^ subWord table prev)) ∧
    (i % nk ≠ 0 → ¬(nk = 8 ∧ i % nk = 4) → sched[i]? = some (back ^^^ prev))

/-- R160: another table gives the same schedule of a key exactly when it agrees with the first one in every entry the
expansion looks up; so a table that differs in one looked-up entry changes the schedule. -/
def Obligations.ScheduleIsFixedByTheEntriesLookedUp : Prop :=
  ∀ (table other : SboxTable) (key : List Byte) (sched : List Word), (classify key.length).var ≠ 3#2 →
    expand table key = .ok sched →
    (expand other key = .ok sched ↔
      ∀ (i : Nat) (prev : Word), (classify key.length).nk ≤ i → i < (classify key.length).nw →
        sched[i - 1]? = some prev → ∀ b ∈ lookedUp (classify key.length).nk i prev, sbox other b = sbox table b)

/-- R222: the two levels agree. For every key of legal length: start an expansion with the key latched and run the step
cycle; it ends without a fault or a refusal at pc = NW, and `W[i]` is word `i` of `Expand` of the key for every i < NW. -/
def Obligations.StepCycleBuildsTheSchedule : Prop :=
  ∀ (s : State) (keylen index : Byte) (slots : List Byte), slots.length = 32 → (classify keylen.toNat).var ≠ 3#2 →
    ∃ (t : State) (sched : List Word), expand s.sboxRom (requestKey keylen slots) = .ok sched ∧
      runExpansion (classify keylen.toNat).nw (s.accept keylen slots index).startExpansion = .next t ∧
      t.pcNat = (classify keylen.toNat).nw ∧ (∀ i, i < (classify keylen.toNat).nw → t.w[i]? = sched[i]?) ∧
      stepLevelSchedule (s.accept keylen slots index) = some sched

/-! ## GETRK -/

/-- R254, R40: in every state whose cached schedules are right (R40, a premise here; EveryStepKeepsTheInvariant keeps it),
a ready KSE completes every `GETRK`, and the response is the function of the request alone. -/
def Obligations.GetrkRespondsByTheRequestAlone : Prop :=
  ∀ (s : State) (keylen index : Byte) (slots : List Byte), slots.length = 32 → s.ready = true →
    CacheRight s.sboxRom s.cache →
    ∃ t, exec (.getrk keylen slots index) s = .next t ∧ t.busy = false ∧
      t.resp.valid = true ∧ t.resp.code ++ t.resp.word = (respondTo s.sboxRom keylen slots index).encode

/-- The frame of `GETRK` (R22, R61, R245): the latch holds the request; the request channel, HOST, the level, a loaded
program and the parameters are as before; only the bank of the key's variant may change (R249). -/
def Obligations.GetrkFrame : Prop :=
  ∀ (s t : State) (keylen index : Byte) (slots : List Byte), slots.length = 32 → s.ready = true →
    exec (.getrk keylen slots index) s = .next t →
    Latched t keylen slots index ∧ SurroundingsUnchanged s t ∧
      ∀ var : BitVec 2, var ≠ (classify keylen.toNat).var → t.cache.bank var = s.cache.bank var

/-- R246, R121, R272: a length other than 16, 24 and 32 gives Err(InvalidKeyLength), whatever the index and the slots,
and nothing else happens but the latching of the request. -/
def Obligations.BadKeyLengthIsRefusedFirst : Prop :=
  ∀ (s : State) (keylen index : Byte) (slots : List Byte), slots.length = 32 → s.ready = true →
    keylen ≠ 16#8 → keylen ≠ 24#8 → keylen ≠ 32#8 →
    ∃ t, exec (.getrk keylen slots index) s = .next t ∧ t.resp = ⟨true, 1#2, 0#32⟩ ∧ t.busy = false ∧
      t.cache = s.cache ∧ t.draws = s.draws ∧ SequencerUntouched s t ∧ Latched t keylen slots index ∧
      SurroundingsUnchanged s t

/-- R247, R250, R251: on a hit no step runs and the cache is not written; the response is the stored word, or
IndexOutOfRange when index >= NW. -/
def Obligations.HitAnswersFromTheCache : Prop :=
  ∀ (s : State) (keylen index : Byte) (slots : List Byte) (sched : List Word), slots.length = 32 → s.ready = true →
    (classify keylen.toNat).var ≠ 3#2 →
    s.cache.lookup (classify keylen.toNat).var (requestKey keylen slots) = some sched →
    ∃ t, exec (.getrk keylen slots index) s = .next t ∧ t.busy = false ∧ t.cache = s.cache ∧ t.draws = s.draws ∧
      SequencerUntouched s t ∧ Latched t keylen slots index ∧ SurroundingsUnchanged s t ∧
      (∀ word, index.toNat < (classify keylen.toNat).nw → sched[index.toNat]? = some word →
        t.resp = ⟨true, 0#2, word⟩) ∧
      ((classify keylen.toNat).nw ≤ index.toNat → t.resp = ⟨true, 2#2, 0#32⟩)

/-- R248, R249, R255: a miss stores the whole schedule under the key, whatever the index; the schedule is `Expand` of the
key. The bank of the key's variant becomes what `Store` makes of it, and no other bank changes. When CACHE_CAP is 0
nothing is stored; while the bank has room no other key loses its schedule; in every case at most one other key does,
and it is a key of that bank. -/
def Obligations.MissStoresTheWholeSchedule : Prop :=
  ∀ (s : State) (keylen index : Byte) (slots : List Byte), slots.length = 32 → s.ready = true →
    (classify keylen.toNat).var ≠ 3#2 →
    s.cache.lookup (classify keylen.toNat).var (requestKey keylen slots) = none →
    ∃ t sched, exec (.getrk keylen slots index) s = .next t ∧
      expand s.sboxRom (requestKey keylen slots) = .ok sched ∧
      (s.cacheCap ≠ some 0 → t.cache.lookup (classify keylen.toNat).var (requestKey keylen slots) = some sched) ∧
      (s.cacheCap = some 0 → t.cache = s.cache) ∧
      t.cache.bank (classify keylen.toNat).var =
        bankStore s.cacheCap s.draws (s.cache.bank (classify keylen.toNat).var) ⟨requestKey keylen slots, sched⟩ ∧
      (∀ var : BitVec 2, var ≠ (classify keylen.toNat).var → t.cache.bank var = s.cache.bank var) ∧
      ((∀ cap, s.cacheCap = some cap → (s.cache.bank (classify keylen.toNat).var).length < cap) →
        ∀ (var : BitVec 2) (key : List Byte), key ≠ requestKey keylen slots →
          t.cache.lookup var key = s.cache.lookup var key) ∧
      ∃ lost : List Byte, ∀ (var : BitVec 2) (key : List Byte), key ≠ requestKey keylen slots →
        ¬(var = (classify keylen.toNat).var ∧ key = lost) → t.cache.lookup var key = s.cache.lookup var key

/-- R200, R241, R22: at the step level, a ready KSE accepts the request at the head of the channel and, on a legal length
and a miss, starts an expansion: the latch is loaded, BUSY is set, pc becomes 0, every mark is cleared, RCREG becomes 0x01
where it exists, and nothing else changes. (That acceptance and the start are one step is log entry 3.) -/
def Obligations.MissStartsAnExpansion : Prop :=
  ∀ (s : State) (q : Request) (rest : List Request) (keylen index : Byte) (slots : List Byte),
    decodeRequest q = .getrk keylen slots index → s.host = [] → s.program = none → s.ready = true → s.level = .step →
    s.port = q :: rest → (classify keylen.toNat).var ≠ 3#2 →
    s.cache.lookup (classify keylen.toNat).var (requestKey keylen slots) = none →
    ∃ t, step s = .next t ∧ Latched t keylen slots index ∧ t.busy = true ∧ t.pcNat = 0 ∧
      (∀ i, i < 60 → t.wv[i]? = some false) ∧ (s.rcImpl = .xtimeRegister → t.rcreg = 0x01#8) ∧
      (s.rcImpl = .table → t.rcreg = s.rcreg) ∧ t.port = rest ∧
      t = { s with keylen := t.keylen, key := t.key, index := t.index, busy := t.busy, pc := t.pc, wv := t.wv,
                   rcreg := t.rcreg, port := t.port }

/-- R202, R222: after a miss pc = NW, W[0..NW-1] hold the schedule with all their marks set, and W[NW..59] are unmarked
and as before; RCREG, where it exists, has been doubled once per `XG` step, and where it does not it is as before (R177). -/
def Obligations.MissLeavesTheScheduleInW : Prop :=
  ∀ (s t : State) (keylen index : Byte) (slots : List Byte) (sched : List Word), slots.length = 32 → s.ready = true →
    (classify keylen.toNat).var ≠ 3#2 →
    s.cache.lookup (classify keylen.toNat).var (requestKey keylen slots) = none →
    expand s.sboxRom (requestKey keylen slots) = .ok sched → exec (.getrk keylen slots index) s = .next t →
    t.pcNat = (classify keylen.toNat).nw ∧
      (∀ i, i < (classify keylen.toNat).nw → t.w[i]? = sched[i]? ∧ t.wv[i]? = some true) ∧
      (∀ i, (classify keylen.toNat).nw ≤ i → i < 60 → t.w[i]? = s.w[i]? ∧ t.wv[i]? = some false) ∧
      (s.rcImpl = .xtimeRegister → t.rcreg =
        xtime^[xgStepsBefore (classify keylen.toNat).nk (classify keylen.toNat).nw] 0x01#8) ∧
      (s.rcImpl = .table → t.rcreg = s.rcreg)

/-- R41, R249: for a finite CACHE_CAP and a key that is not in the bank: a store never leaves the bank above CACHE_CAP;
with CACHE_CAP = 0 the bank is as before; with room it is the earlier entries and the new one; a full bank is the earlier
entries but exactly one, whichever the draw names, and the new one. -/
def Obligations.StoreKeepsTheCapacity : Prop :=
  ∀ (cap n : Nat) (bank : List Entry) (e : Entry), bank.length ≤ cap → (∀ x ∈ bank, x.key ≠ e.key) →
    (bankStore (some cap) n bank e).length ≤ cap ∧
      (cap = 0 → bankStore (some cap) n bank e = bank) ∧
      (bank.length < cap → List.Perm (bankStore (some cap) n bank e) (e :: bank)) ∧
      (0 < cap → bank.length = cap →
        ∃ victim, victim < bank.length ∧ List.Perm (bankStore (some cap) n bank e) (e :: bank.eraseIdx victim))

/-! ## Steps of the machine -/

/-- A step runs the decoded instruction: the request at the head of the channel, at the command level; the word at pc of
a loaded step program; the word the selector emits for pc, while a command is served at the step level (R76, R201,
R245). -/
def Obligations.StepRunsTheDecodedInstruction : Prop :=
  (∀ (s : State) (q : Request) (rest : List Request), s.host = [] → s.program = none → s.busy = false →
      s.level = .command → s.port = q :: rest →
      ∃ i, decode (.request q) = .ok i ∧ step s = exec i { s with port := rest }) ∧
    (∀ (s : State) (words : List StepWord) (w : StepWord) (i : Instr), s.host = [] → s.program = some words →
      s.pcNat < s.nw → words[s.pcNat]? = some w → decode (.step w) = .ok i → step s = exec i s) ∧
    ∀ (s : State) (i : Instr), s.host = [] → s.program = none → s.busy = true → s.pcNat < s.nw →
      decode (.step (stepSel s.nk s.pcNat)) = .ok i → step s = exec i s

/-- R26, R29, R44: the invariant holds at reset. (Its clause on the canonical form of the cache is log entry 8's; it asks
nothing of RESP.CODE and RESP.WORD, since VALID = 0.) -/
def Obligations.ResetMeetsTheInvariant : Prop := Inv State.reset

/-- R40, R41, R97, R26, R30, R222, R178: every step, of KSE or of HOST, keeps the invariant. (Its clause on the canonical
form of the cache is log entry 8's; what HOST's reset leaves of the parameters is log entry 15's.) -/
def Obligations.EveryStepKeepsTheInvariant : Prop := ∀ s t : State, Inv s → step s = .next t → Inv t

/-- R277, R103, R30, R214: without a hand-written step program the machine never faults and never refuses, and it never
loads one: from every state that meets the invariant it steps on. -/
def Obligations.HardwareNeverStops : Prop :=
  ∀ s : State, Inv s → s.program = none → ∃ t, step s = .next t ∧ t.program = none

/-- R97: no response waiting in RESP ever has code 3, or a word beside an error: every step keeps that. -/
def Obligations.ResponsesStayWellFormed : Prop :=
  ∀ s t : State, RespFormed s.resp → step s = .next t → RespFormed t.resp

/-- R178: while an expansion is under way, at every `XG j` the generator register holds RC(j): register and table
agree. -/
def Obligations.GeneratorAgreesWithTheTable : Prop :=
  ∀ (s : State) (j : Nat), Inv s → s.busy = true → s.rcImpl = .xtimeRegister → s.pcNat < s.nw →
    decodeStep (stepSel s.nk s.pcNat) = .ok (.xg j) → rcRom[j]? = some s.rcreg

/-- R8, R222, R256: the two levels agree. Served at the step level, a request is answered within 62 steps, and the state
is then the one the atomic command gives. -/
def Obligations.TheTwoLevelsAgree : Prop :=
  ∀ (s : State) (q : Request) (rest : List Request), s.host = [] → s.program = none → s.ready = true →
    s.level = .step → s.port = q :: rest →
    ∃ (n : Nat) (t : State), n ≤ 62 ∧ exec (decodeRequest q) { s with port := rest } = .next t ∧
      Host.Core.run Sys2Proof.core n s = .next t

/-- R242, R254: two requests offered and taken one after the other get exactly one response each, in their order, each
the function of its own request; so an identical request gets an identical response. -/
def Obligations.OneResponsePerRequestInOrder : Prop :=
  ∀ (s : State) (q1 q2 : Request), Inv s → s.program = none → s.ready = true → s.port = [] → s.level = .command →
    s.host = [.offer q1, .take, .offer q2, .take] →
    ∃ t : State, Host.Core.run Sys2Proof.core 6 s = .next t ∧ t.ready = true ∧ t.host = [] ∧ t.port = [] ∧
      t.received = s.received ++ [(respondToWord s.sboxRom q1).encode, (respondToWord s.sboxRom q2).encode]

/-- R107, R105, R222: the step program `EXPAND nk`, loaded on a key of its length, leaves the key's schedule in W and the
cache as it was. (How a hand-written program is loaded and ends is log entry 4.) -/
def Obligations.ExpandProgramBuildsTheSchedule : Prop :=
  ∀ (s : State) (key : List Byte) (sched : List Word), (classify key.length).var ≠ 3#2 → s.host = [] →
    expand s.sboxRom key = .ok sched →
    ∃ t : State, Host.Core.run Sys2Proof.core (classify key.length).nw
        (s.withProgram key (expandProgram (classify key.length).nk)) = .next t ∧
      t.pcNat = (classify key.length).nw ∧ t.cache = s.cache ∧ t.resp = s.resp ∧
      ∀ i, i < (classify key.length).nw → t.w[i]? = sched[i]? ∧ t.wv[i]? = some true
end

