-- ==== Sys2Proof/Laws/Bytes.lean ====
section
/-! SUPPORT. The byte order: `word32` and `byteAt` are inverse to each other (spec/00_scope.md R12), and the units act
byte by byte. -/

namespace Sys2Proof.Machine

variable (b0 b1 b2 b3 : Byte)

@[simp] theorem byteAt_word32_0 : byteAt (word32 b0 b1 b2 b3) 0 = b0 := by
  apply BitVec.eq_of_getLsbD_eq
  intro i hi
  simp only [byteAt, word32, BitVec.getLsbD_extractLsb', BitVec.getLsbD_append]
  simp only [hi, decide_true, Bool.true_and]
  rw [if_neg (by omega), if_neg (by omega), if_neg (by omega)]
  congr 1
  omega

@[simp] theorem byteAt_word32_1 : byteAt (word32 b0 b1 b2 b3) 1 = b1 := by
  apply BitVec.eq_of_getLsbD_eq
  intro i hi
  simp only [byteAt, word32, BitVec.getLsbD_extractLsb', BitVec.getLsbD_append]
  simp only [hi, decide_true, Bool.true_and]
  rw [if_neg (by omega), if_neg (by omega), if_pos (by omega)]
  congr 1
  omega

@[simp] theorem byteAt_word32_2 : byteAt (word32 b0 b1 b2 b3) 2 = b2 := by
  apply BitVec.eq_of_getLsbD_eq
  intro i hi
  simp only [byteAt, word32, BitVec.getLsbD_extractLsb', BitVec.getLsbD_append]
  simp only [hi, decide_true, Bool.true_and]
  rw [if_neg (by omega), if_pos (by omega)]
  congr 1
  omega

@[simp] theorem byteAt_word32_3 : byteAt (word32 b0 b1 b2 b3) 3 = b3 := by
  apply BitVec.eq_of_getLsbD_eq
  intro i hi
  simp only [byteAt, word32, BitVec.getLsbD_extractLsb', BitVec.getLsbD_append]
  simp only [hi, decide_true, Bool.true_and]
  rw [if_pos (by omega)]
  congr 1
  omega

/-- `word32(bytes4(v)) = v` (R12). -/
@[simp] theorem word32_byteAt (w : Word) : word32 (byteAt w 0) (byteAt w 1) (byteAt w 2) (byteAt w 3) = w := by
  apply BitVec.eq_of_getLsbD_eq
  intro i hi
  simp only [byteAt, word32, BitVec.getLsbD_extractLsb', BitVec.getLsbD_append]
  split
  · rename_i h; simp [h]
  split
  · rename_i h; simp [h]; congr 1; omega
  split
  · rename_i h; simp [h]; congr 1; omega
  · simp [show i - 8 - 8 - 8 < 8 by omega]; congr 1; omega

/-- Two Words with the same four bytes are equal. -/
theorem word_ext {a b : Word} (h0 : byteAt a 0 = byteAt b 0) (h1 : byteAt a 1 = byteAt b 1)
    (h2 : byteAt a 2 = byteAt b 2) (h3 : byteAt a 3 = byteAt b 3) : a = b := by
  rw [← word32_byteAt a, ← word32_byteAt b, h0, h1, h2, h3]

/-- `Rcon(j)` exists exactly for `j` in 0..9 (R171, R172). -/
theorem rcon_ok_of_lt {j : Nat} (h : j < 10) : ∃ c, rcon j = .ok c := by
  unfold rcon
  have hj : j < rcRom.length := by simpa [rcRom] using h
  rw [List.getElem?_eq_getElem hj]
  exact ⟨_, rfl⟩

theorem rcon_error_of_ge {j : Nat} (h : 10 ≤ j) : rcon j = .error .indexOutOfRange := by
  unfold rcon
  rw [List.getElem?_eq_none (by simpa [rcRom] using h)]

@[simp] theorem rotStage_true (t : Word) : rotStage true t = rotWord t := rfl
@[simp] theorem rotStage_false (t : Word) : rotStage false t = t := rfl
@[simp] theorem subStage_true (table : SboxTable) (t : Word) : subStage table true t = subWord table t := rfl
@[simp] theorem subStage_false (table : SboxTable) (t : Word) : subStage table false t = t := rfl
@[simp] theorem rconStage_false (j : Nat) (t : Word) : rconStage false j t = .ok t := rfl

end Sys2Proof.Machine
end

