-- ==== Sys2Proof/Laws/State.lean ====
section
/-! SUPPORT. One lemma per field per update of State, each true by rfl, so that no later proof unfolds a record update.
-/

namespace Sys2Proof.Machine

variable (s : State)

/-! `writeW` -/

@[simp] theorem writeW_keylen (k : Nat) (v : Word) : (s.writeW k v).keylen = s.keylen := rfl
@[simp] theorem writeW_key (k : Nat) (v : Word) : (s.writeW k v).key = s.key := rfl
@[simp] theorem writeW_index (k : Nat) (v : Word) : (s.writeW k v).index = s.index := rfl
@[simp] theorem writeW_pc (k : Nat) (v : Word) : (s.writeW k v).pc = s.pc := rfl
@[simp] theorem writeW_temp (k : Nat) (v : Word) : (s.writeW k v).temp = s.temp := rfl
@[simp] theorem writeW_w (k : Nat) (v : Word) : (s.writeW k v).w = s.w.setIfInBounds k v := rfl
@[simp] theorem writeW_wv (k : Nat) (v : Word) : (s.writeW k v).wv = s.wv.setIfInBounds k true := rfl
@[simp] theorem writeW_rcreg (k : Nat) (v : Word) : (s.writeW k v).rcreg = s.rcreg := rfl
@[simp] theorem writeW_cache (k : Nat) (v : Word) : (s.writeW k v).cache = s.cache := rfl
@[simp] theorem writeW_resp (k : Nat) (v : Word) : (s.writeW k v).resp = s.resp := rfl
@[simp] theorem writeW_busy (k : Nat) (v : Word) : (s.writeW k v).busy = s.busy := rfl
@[simp] theorem writeW_port (k : Nat) (v : Word) : (s.writeW k v).port = s.port := rfl
@[simp] theorem writeW_host (k : Nat) (v : Word) : (s.writeW k v).host = s.host := rfl
@[simp] theorem writeW_received (k : Nat) (v : Word) : (s.writeW k v).received = s.received := rfl
@[simp] theorem writeW_level (k : Nat) (v : Word) : (s.writeW k v).level = s.level := rfl
@[simp] theorem writeW_program (k : Nat) (v : Word) : (s.writeW k v).program = s.program := rfl
@[simp] theorem writeW_cacheCap (k : Nat) (v : Word) : (s.writeW k v).cacheCap = s.cacheCap := rfl
@[simp] theorem writeW_draws (k : Nat) (v : Word) : (s.writeW k v).draws = s.draws := rfl
@[simp] theorem writeW_rcImpl (k : Nat) (v : Word) : (s.writeW k v).rcImpl = s.rcImpl := rfl
@[simp] theorem writeW_sboxRom (k : Nat) (v : Word) : (s.writeW k v).sboxRom = s.sboxRom := rfl

/-! `advance` -/

@[simp] theorem advance_keylen : (s.advance).keylen = s.keylen := rfl
@[simp] theorem advance_key : (s.advance).key = s.key := rfl
@[simp] theorem advance_index : (s.advance).index = s.index := rfl
@[simp] theorem advance_pc : (s.advance).pc = s.pc + 1#6 := rfl
@[simp] theorem advance_temp : (s.advance).temp = s.temp := rfl
@[simp] theorem advance_w : (s.advance).w = s.w := rfl
@[simp] theorem advance_wv : (s.advance).wv = s.wv := rfl
@[simp] theorem advance_rcreg : (s.advance).rcreg = s.rcreg := rfl
@[simp] theorem advance_cache : (s.advance).cache = s.cache := rfl
@[simp] theorem advance_resp : (s.advance).resp = s.resp := rfl
@[simp] theorem advance_busy : (s.advance).busy = s.busy := rfl
@[simp] theorem advance_port : (s.advance).port = s.port := rfl
@[simp] theorem advance_host : (s.advance).host = s.host := rfl
@[simp] theorem advance_received : (s.advance).received = s.received := rfl
@[simp] theorem advance_level : (s.advance).level = s.level := rfl
@[simp] theorem advance_program : (s.advance).program = s.program := rfl
@[simp] theorem advance_cacheCap : (s.advance).cacheCap = s.cacheCap := rfl
@[simp] theorem advance_draws : (s.advance).draws = s.draws := rfl
@[simp] theorem advance_rcImpl : (s.advance).rcImpl = s.rcImpl := rfl
@[simp] theorem advance_sboxRom : (s.advance).sboxRom = s.sboxRom := rfl

/-! `setTemp` -/

@[simp] theorem setTemp_keylen (t : Word) : (s.setTemp t).keylen = s.keylen := rfl
@[simp] theorem setTemp_key (t : Word) : (s.setTemp t).key = s.key := rfl
@[simp] theorem setTemp_index (t : Word) : (s.setTemp t).index = s.index := rfl
@[simp] theorem setTemp_pc (t : Word) : (s.setTemp t).pc = s.pc := rfl
@[simp] theorem setTemp_temp (t : Word) : (s.setTemp t).temp = t := rfl
@[simp] theorem setTemp_w (t : Word) : (s.setTemp t).w = s.w := rfl
@[simp] theorem setTemp_wv (t : Word) : (s.setTemp t).wv = s.wv := rfl
@[simp] theorem setTemp_rcreg (t : Word) : (s.setTemp t).rcreg = s.rcreg := rfl
@[simp] theorem setTemp_cache (t : Word) : (s.setTemp t).cache = s.cache := rfl
@[simp] theorem setTemp_resp (t : Word) : (s.setTemp t).resp = s.resp := rfl
@[simp] theorem setTemp_busy (t : Word) : (s.setTemp t).busy = s.busy := rfl
@[simp] theorem setTemp_port (t : Word) : (s.setTemp t).port = s.port := rfl
@[simp] theorem setTemp_host (t : Word) : (s.setTemp t).host = s.host := rfl
@[simp] theorem setTemp_received (t : Word) : (s.setTemp t).received = s.received := rfl
@[simp] theorem setTemp_level (t : Word) : (s.setTemp t).level = s.level := rfl
@[simp] theorem setTemp_program (t : Word) : (s.setTemp t).program = s.program := rfl
@[simp] theorem setTemp_cacheCap (t : Word) : (s.setTemp t).cacheCap = s.cacheCap := rfl
@[simp] theorem setTemp_draws (t : Word) : (s.setTemp t).draws = s.draws := rfl
@[simp] theorem setTemp_rcImpl (t : Word) : (s.setTemp t).rcImpl = s.rcImpl := rfl
@[simp] theorem setTemp_sboxRom (t : Word) : (s.setTemp t).sboxRom = s.sboxRom := rfl

/-! `stepRcreg` -/

@[simp] theorem stepRcreg_keylen : (s.stepRcreg).keylen = s.keylen := rfl
@[simp] theorem stepRcreg_key : (s.stepRcreg).key = s.key := rfl
@[simp] theorem stepRcreg_index : (s.stepRcreg).index = s.index := rfl
@[simp] theorem stepRcreg_pc : (s.stepRcreg).pc = s.pc := rfl
@[simp] theorem stepRcreg_temp : (s.stepRcreg).temp = s.temp := rfl
@[simp] theorem stepRcreg_w : (s.stepRcreg).w = s.w := rfl
@[simp] theorem stepRcreg_wv : (s.stepRcreg).wv = s.wv := rfl
@[simp] theorem stepRcreg_rcreg : (s.stepRcreg).rcreg = (match s.rcImpl with | .xtimeRegister => xtime s.rcreg | .table => s.rcreg) := rfl
@[simp] theorem stepRcreg_cache : (s.stepRcreg).cache = s.cache := rfl
@[simp] theorem stepRcreg_resp : (s.stepRcreg).resp = s.resp := rfl
@[simp] theorem stepRcreg_busy : (s.stepRcreg).busy = s.busy := rfl
@[simp] theorem stepRcreg_port : (s.stepRcreg).port = s.port := rfl
@[simp] theorem stepRcreg_host : (s.stepRcreg).host = s.host := rfl
@[simp] theorem stepRcreg_received : (s.stepRcreg).received = s.received := rfl
@[simp] theorem stepRcreg_level : (s.stepRcreg).level = s.level := rfl
@[simp] theorem stepRcreg_program : (s.stepRcreg).program = s.program := rfl
@[simp] theorem stepRcreg_cacheCap : (s.stepRcreg).cacheCap = s.cacheCap := rfl
@[simp] theorem stepRcreg_draws : (s.stepRcreg).draws = s.draws := rfl
@[simp] theorem stepRcreg_rcImpl : (s.stepRcreg).rcImpl = s.rcImpl := rfl
@[simp] theorem stepRcreg_sboxRom : (s.stepRcreg).sboxRom = s.sboxRom := rfl

/-! `store` -/

@[simp] theorem store_keylen (sched : List Word) : (s.store sched).keylen = s.keylen := rfl
@[simp] theorem store_key (sched : List Word) : (s.store sched).key = s.key := rfl
@[simp] theorem store_index (sched : List Word) : (s.store sched).index = s.index := rfl
@[simp] theorem store_pc (sched : List Word) : (s.store sched).pc = s.pc := rfl
@[simp] theorem store_temp (sched : List Word) : (s.store sched).temp = s.temp := rfl
@[simp] theorem store_w (sched : List Word) : (s.store sched).w = s.w := rfl
@[simp] theorem store_wv (sched : List Word) : (s.store sched).wv = s.wv := rfl
@[simp] theorem store_rcreg (sched : List Word) : (s.store sched).rcreg = s.rcreg := rfl
@[simp] theorem store_cache (sched : List Word) : (s.store sched).cache = s.cache.setBank s.var (bankStore s.cacheCap s.draws (s.cache.bank s.var) ⟨s.keyValue, sched⟩) := rfl
@[simp] theorem store_resp (sched : List Word) : (s.store sched).resp = s.resp := rfl
@[simp] theorem store_busy (sched : List Word) : (s.store sched).busy = s.busy := rfl
@[simp] theorem store_port (sched : List Word) : (s.store sched).port = s.port := rfl
@[simp] theorem store_host (sched : List Word) : (s.store sched).host = s.host := rfl
@[simp] theorem store_received (sched : List Word) : (s.store sched).received = s.received := rfl
@[simp] theorem store_level (sched : List Word) : (s.store sched).level = s.level := rfl
@[simp] theorem store_program (sched : List Word) : (s.store sched).program = s.program := rfl
@[simp] theorem store_cacheCap (sched : List Word) : (s.store sched).cacheCap = s.cacheCap := rfl
@[simp] theorem store_draws (sched : List Word) : (s.store sched).draws = (if drawsVictim s.cacheCap (s.cache.bank s.var) then s.draws + 1 else s.draws) := rfl
@[simp] theorem store_rcImpl (sched : List Word) : (s.store sched).rcImpl = s.rcImpl := rfl
@[simp] theorem store_sboxRom (sched : List Word) : (s.store sched).sboxRom = s.sboxRom := rfl

/-! `accept` -/

@[simp] theorem accept_keylen (keylen : Byte) (slots : List Byte) (index : Byte) : (s.accept keylen slots index).keylen = keylen := rfl
@[simp] theorem accept_key (keylen : Byte) (slots : List Byte) (index : Byte) : (s.accept keylen slots index).key = Vector.ofFn (fun k : Fin 32 => slots.getD k.val 0#8) := rfl
@[simp] theorem accept_index (keylen : Byte) (slots : List Byte) (index : Byte) : (s.accept keylen slots index).index = index := rfl
@[simp] theorem accept_pc (keylen : Byte) (slots : List Byte) (index : Byte) : (s.accept keylen slots index).pc = s.pc := rfl
@[simp] theorem accept_temp (keylen : Byte) (slots : List Byte) (index : Byte) : (s.accept keylen slots index).temp = s.temp := rfl
@[simp] theorem accept_w (keylen : Byte) (slots : List Byte) (index : Byte) : (s.accept keylen slots index).w = s.w := rfl
@[simp] theorem accept_wv (keylen : Byte) (slots : List Byte) (index : Byte) : (s.accept keylen slots index).wv = s.wv := rfl
@[simp] theorem accept_rcreg (keylen : Byte) (slots : List Byte) (index : Byte) : (s.accept keylen slots index).rcreg = s.rcreg := rfl
@[simp] theorem accept_cache (keylen : Byte) (slots : List Byte) (index : Byte) : (s.accept keylen slots index).cache = s.cache := rfl
@[simp] theorem accept_resp (keylen : Byte) (slots : List Byte) (index : Byte) : (s.accept keylen slots index).resp = s.resp := rfl
@[simp] theorem accept_busy (keylen : Byte) (slots : List Byte) (index : Byte) : (s.accept keylen slots index).busy = true := rfl
@[simp] theorem accept_port (keylen : Byte) (slots : List Byte) (index : Byte) : (s.accept keylen slots index).port = s.port := rfl
@[simp] theorem accept_host (keylen : Byte) (slots : List Byte) (index : Byte) : (s.accept keylen slots index).host = s.host := rfl
@[simp] theorem accept_received (keylen : Byte) (slots : List Byte) (index : Byte) : (s.accept keylen slots index).received = s.received := rfl
@[simp] theorem accept_level (keylen : Byte) (slots : List Byte) (index : Byte) : (s.accept keylen slots index).level = s.level := rfl
@[simp] theorem accept_program (keylen : Byte) (slots : List Byte) (index : Byte) : (s.accept keylen slots index).program = s.program := rfl
@[simp] theorem accept_cacheCap (keylen : Byte) (slots : List Byte) (index : Byte) : (s.accept keylen slots index).cacheCap = s.cacheCap := rfl
@[simp] theorem accept_draws (keylen : Byte) (slots : List Byte) (index : Byte) : (s.accept keylen slots index).draws = s.draws := rfl
@[simp] theorem accept_rcImpl (keylen : Byte) (slots : List Byte) (index : Byte) : (s.accept keylen slots index).rcImpl = s.rcImpl := rfl
@[simp] theorem accept_sboxRom (keylen : Byte) (slots : List Byte) (index : Byte) : (s.accept keylen slots index).sboxRom = s.sboxRom := rfl

/-! `waitAtPort` -/

@[simp] theorem waitAtPort_keylen (q : Request) : (s.waitAtPort q).keylen = s.keylen := rfl
@[simp] theorem waitAtPort_key (q : Request) : (s.waitAtPort q).key = s.key := rfl
@[simp] theorem waitAtPort_index (q : Request) : (s.waitAtPort q).index = s.index := rfl
@[simp] theorem waitAtPort_pc (q : Request) : (s.waitAtPort q).pc = s.pc := rfl
@[simp] theorem waitAtPort_temp (q : Request) : (s.waitAtPort q).temp = s.temp := rfl
@[simp] theorem waitAtPort_w (q : Request) : (s.waitAtPort q).w = s.w := rfl
@[simp] theorem waitAtPort_wv (q : Request) : (s.waitAtPort q).wv = s.wv := rfl
@[simp] theorem waitAtPort_rcreg (q : Request) : (s.waitAtPort q).rcreg = s.rcreg := rfl
@[simp] theorem waitAtPort_cache (q : Request) : (s.waitAtPort q).cache = s.cache := rfl
@[simp] theorem waitAtPort_resp (q : Request) : (s.waitAtPort q).resp = s.resp := rfl
@[simp] theorem waitAtPort_busy (q : Request) : (s.waitAtPort q).busy = s.busy := rfl
@[simp] theorem waitAtPort_port (q : Request) : (s.waitAtPort q).port = q :: s.port := rfl
@[simp] theorem waitAtPort_host (q : Request) : (s.waitAtPort q).host = s.host := rfl
@[simp] theorem waitAtPort_received (q : Request) : (s.waitAtPort q).received = s.received := rfl
@[simp] theorem waitAtPort_level (q : Request) : (s.waitAtPort q).level = s.level := rfl
@[simp] theorem waitAtPort_program (q : Request) : (s.waitAtPort q).program = s.program := rfl
@[simp] theorem waitAtPort_cacheCap (q : Request) : (s.waitAtPort q).cacheCap = s.cacheCap := rfl
@[simp] theorem waitAtPort_draws (q : Request) : (s.waitAtPort q).draws = s.draws := rfl
@[simp] theorem waitAtPort_rcImpl (q : Request) : (s.waitAtPort q).rcImpl = s.rcImpl := rfl
@[simp] theorem waitAtPort_sboxRom (q : Request) : (s.waitAtPort q).sboxRom = s.sboxRom := rfl

/-! `respond` -/

@[simp] theorem respond_keylen (r : Response) : (s.respond r).keylen = s.keylen := rfl
@[simp] theorem respond_key (r : Response) : (s.respond r).key = s.key := rfl
@[simp] theorem respond_index (r : Response) : (s.respond r).index = s.index := rfl
@[simp] theorem respond_pc (r : Response) : (s.respond r).pc = s.pc := rfl
@[simp] theorem respond_temp (r : Response) : (s.respond r).temp = s.temp := rfl
@[simp] theorem respond_w (r : Response) : (s.respond r).w = s.w := rfl
@[simp] theorem respond_wv (r : Response) : (s.respond r).wv = s.wv := rfl
@[simp] theorem respond_rcreg (r : Response) : (s.respond r).rcreg = s.rcreg := rfl
@[simp] theorem respond_cache (r : Response) : (s.respond r).cache = s.cache := rfl
@[simp] theorem respond_resp (r : Response) : (s.respond r).resp = Resp.ofResponse r := rfl
@[simp] theorem respond_busy (r : Response) : (s.respond r).busy = false := rfl
@[simp] theorem respond_port (r : Response) : (s.respond r).port = s.port := rfl
@[simp] theorem respond_host (r : Response) : (s.respond r).host = s.host := rfl
@[simp] theorem respond_received (r : Response) : (s.respond r).received = s.received := rfl
@[simp] theorem respond_level (r : Response) : (s.respond r).level = s.level := rfl
@[simp] theorem respond_program (r : Response) : (s.respond r).program = s.program := rfl
@[simp] theorem respond_cacheCap (r : Response) : (s.respond r).cacheCap = s.cacheCap := rfl
@[simp] theorem respond_draws (r : Response) : (s.respond r).draws = s.draws := rfl
@[simp] theorem respond_rcImpl (r : Response) : (s.respond r).rcImpl = s.rcImpl := rfl
@[simp] theorem respond_sboxRom (r : Response) : (s.respond r).sboxRom = s.sboxRom := rfl

/-! `raise` -/

@[simp] theorem raise_keylen (e : KseError) : (s.raise e).keylen = s.keylen := rfl
@[simp] theorem raise_key (e : KseError) : (s.raise e).key = s.key := rfl
@[simp] theorem raise_index (e : KseError) : (s.raise e).index = s.index := rfl
@[simp] theorem raise_pc (e : KseError) : (s.raise e).pc = s.pc := rfl
@[simp] theorem raise_temp (e : KseError) : (s.raise e).temp = s.temp := rfl
@[simp] theorem raise_w (e : KseError) : (s.raise e).w = s.w := rfl
@[simp] theorem raise_wv (e : KseError) : (s.raise e).wv = s.wv := rfl
@[simp] theorem raise_rcreg (e : KseError) : (s.raise e).rcreg = s.rcreg := rfl
@[simp] theorem raise_cache (e : KseError) : (s.raise e).cache = s.cache := rfl
@[simp] theorem raise_resp (e : KseError) : (s.raise e).resp = Resp.ofResponse (.err e) := rfl
@[simp] theorem raise_busy (e : KseError) : (s.raise e).busy = false := rfl
@[simp] theorem raise_port (e : KseError) : (s.raise e).port = s.port := rfl
@[simp] theorem raise_host (e : KseError) : (s.raise e).host = s.host := rfl
@[simp] theorem raise_received (e : KseError) : (s.raise e).received = s.received := rfl
@[simp] theorem raise_level (e : KseError) : (s.raise e).level = s.level := rfl
@[simp] theorem raise_program (e : KseError) : (s.raise e).program = s.program := rfl
@[simp] theorem raise_cacheCap (e : KseError) : (s.raise e).cacheCap = s.cacheCap := rfl
@[simp] theorem raise_draws (e : KseError) : (s.raise e).draws = s.draws := rfl
@[simp] theorem raise_rcImpl (e : KseError) : (s.raise e).rcImpl = s.rcImpl := rfl
@[simp] theorem raise_sboxRom (e : KseError) : (s.raise e).sboxRom = s.sboxRom := rfl

/-! `takeResponse` -/

@[simp] theorem takeResponse_keylen : (s.takeResponse).keylen = s.keylen := rfl
@[simp] theorem takeResponse_key : (s.takeResponse).key = s.key := rfl
@[simp] theorem takeResponse_index : (s.takeResponse).index = s.index := rfl
@[simp] theorem takeResponse_pc : (s.takeResponse).pc = s.pc := rfl
@[simp] theorem takeResponse_temp : (s.takeResponse).temp = s.temp := rfl
@[simp] theorem takeResponse_w : (s.takeResponse).w = s.w := rfl
@[simp] theorem takeResponse_wv : (s.takeResponse).wv = s.wv := rfl
@[simp] theorem takeResponse_rcreg : (s.takeResponse).rcreg = s.rcreg := rfl
@[simp] theorem takeResponse_cache : (s.takeResponse).cache = s.cache := rfl
@[simp] theorem takeResponse_resp : (s.takeResponse).resp = { s.resp with valid := false } := rfl
@[simp] theorem takeResponse_busy : (s.takeResponse).busy = s.busy := rfl
@[simp] theorem takeResponse_port : (s.takeResponse).port = s.port := rfl
@[simp] theorem takeResponse_host : (s.takeResponse).host = s.host := rfl
@[simp] theorem takeResponse_received : (s.takeResponse).received = s.received ++ [s.resp.wire] := rfl
@[simp] theorem takeResponse_level : (s.takeResponse).level = s.level := rfl
@[simp] theorem takeResponse_program : (s.takeResponse).program = s.program := rfl
@[simp] theorem takeResponse_cacheCap : (s.takeResponse).cacheCap = s.cacheCap := rfl
@[simp] theorem takeResponse_draws : (s.takeResponse).draws = s.draws := rfl
@[simp] theorem takeResponse_rcImpl : (s.takeResponse).rcImpl = s.rcImpl := rfl
@[simp] theorem takeResponse_sboxRom : (s.takeResponse).sboxRom = s.sboxRom := rfl

/-! `startExpansion` -/

@[simp] theorem startExpansion_keylen : (s.startExpansion).keylen = s.keylen := rfl
@[simp] theorem startExpansion_key : (s.startExpansion).key = s.key := rfl
@[simp] theorem startExpansion_index : (s.startExpansion).index = s.index := rfl
@[simp] theorem startExpansion_pc : (s.startExpansion).pc = 0#6 := rfl
@[simp] theorem startExpansion_temp : (s.startExpansion).temp = s.temp := rfl
@[simp] theorem startExpansion_w : (s.startExpansion).w = s.w := rfl
@[simp] theorem startExpansion_wv : (s.startExpansion).wv = Vector.replicate 60 false := rfl
@[simp] theorem startExpansion_rcreg : (s.startExpansion).rcreg = (match s.rcImpl with | .xtimeRegister => 0x01#8 | .table => s.rcreg) := rfl
@[simp] theorem startExpansion_cache : (s.startExpansion).cache = s.cache := rfl
@[simp] theorem startExpansion_resp : (s.startExpansion).resp = s.resp := rfl
@[simp] theorem startExpansion_busy : (s.startExpansion).busy = s.busy := rfl
@[simp] theorem startExpansion_port : (s.startExpansion).port = s.port := rfl
@[simp] theorem startExpansion_host : (s.startExpansion).host = s.host := rfl
@[simp] theorem startExpansion_received : (s.startExpansion).received = s.received := rfl
@[simp] theorem startExpansion_level : (s.startExpansion).level = s.level := rfl
@[simp] theorem startExpansion_program : (s.startExpansion).program = s.program := rfl
@[simp] theorem startExpansion_cacheCap : (s.startExpansion).cacheCap = s.cacheCap := rfl
@[simp] theorem startExpansion_draws : (s.startExpansion).draws = s.draws := rfl
@[simp] theorem startExpansion_rcImpl : (s.startExpansion).rcImpl = s.rcImpl := rfl
@[simp] theorem startExpansion_sboxRom : (s.startExpansion).sboxRom = s.sboxRom := rfl

/-! `abortExpansion` -/

@[simp] theorem abortExpansion_keylen (e : KseError) : (s.abortExpansion e).keylen = s.keylen := rfl
@[simp] theorem abortExpansion_key (e : KseError) : (s.abortExpansion e).key = s.key := rfl
@[simp] theorem abortExpansion_index (e : KseError) : (s.abortExpansion e).index = s.index := rfl
@[simp] theorem abortExpansion_pc (e : KseError) : (s.abortExpansion e).pc = s.pc := rfl
@[simp] theorem abortExpansion_temp (e : KseError) : (s.abortExpansion e).temp = s.temp := rfl
@[simp] theorem abortExpansion_w (e : KseError) : (s.abortExpansion e).w = s.w := rfl
@[simp] theorem abortExpansion_wv (e : KseError) : (s.abortExpansion e).wv = s.wv := rfl
@[simp] theorem abortExpansion_rcreg (e : KseError) : (s.abortExpansion e).rcreg = s.rcreg := rfl
@[simp] theorem abortExpansion_cache (e : KseError) : (s.abortExpansion e).cache = s.cache := rfl
@[simp] theorem abortExpansion_resp (e : KseError) : (s.abortExpansion e).resp = Resp.ofResponse (.err e) := rfl
@[simp] theorem abortExpansion_busy (e : KseError) : (s.abortExpansion e).busy = false := rfl
@[simp] theorem abortExpansion_port (e : KseError) : (s.abortExpansion e).port = s.port := rfl
@[simp] theorem abortExpansion_host (e : KseError) : (s.abortExpansion e).host = s.host := rfl
@[simp] theorem abortExpansion_received (e : KseError) : (s.abortExpansion e).received = s.received := rfl
@[simp] theorem abortExpansion_level (e : KseError) : (s.abortExpansion e).level = s.level := rfl
@[simp] theorem abortExpansion_program (e : KseError) : (s.abortExpansion e).program = none := rfl
@[simp] theorem abortExpansion_cacheCap (e : KseError) : (s.abortExpansion e).cacheCap = s.cacheCap := rfl
@[simp] theorem abortExpansion_draws (e : KseError) : (s.abortExpansion e).draws = s.draws := rfl
@[simp] theorem abortExpansion_rcImpl (e : KseError) : (s.abortExpansion e).rcImpl = s.rcImpl := rfl
@[simp] theorem abortExpansion_sboxRom (e : KseError) : (s.abortExpansion e).sboxRom = s.sboxRom := rfl

/-! What is computed from KEYLEN, KEY and pc follows them. -/

@[simp] theorem writeW_var (k : Nat) (v : Word) : (s.writeW k v).var = s.var := rfl
@[simp] theorem writeW_nk (k : Nat) (v : Word) : (s.writeW k v).nk = s.nk := rfl
@[simp] theorem writeW_nw (k : Nat) (v : Word) : (s.writeW k v).nw = s.nw := rfl
@[simp] theorem writeW_keyValue (k : Nat) (v : Word) : (s.writeW k v).keyValue = s.keyValue := rfl
@[simp] theorem writeW_pcNat (k : Nat) (v : Word) : (s.writeW k v).pcNat = s.pcNat := rfl
@[simp] theorem advance_var : (s.advance).var = s.var := rfl
@[simp] theorem advance_nk : (s.advance).nk = s.nk := rfl
@[simp] theorem advance_nw : (s.advance).nw = s.nw := rfl
@[simp] theorem advance_keyValue : (s.advance).keyValue = s.keyValue := rfl
@[simp] theorem setTemp_var (t : Word) : (s.setTemp t).var = s.var := rfl
@[simp] theorem setTemp_nk (t : Word) : (s.setTemp t).nk = s.nk := rfl
@[simp] theorem setTemp_nw (t : Word) : (s.setTemp t).nw = s.nw := rfl
@[simp] theorem setTemp_keyValue (t : Word) : (s.setTemp t).keyValue = s.keyValue := rfl
@[simp] theorem setTemp_pcNat (t : Word) : (s.setTemp t).pcNat = s.pcNat := rfl
@[simp] theorem stepRcreg_var : (s.stepRcreg).var = s.var := rfl
@[simp] theorem stepRcreg_nk : (s.stepRcreg).nk = s.nk := rfl
@[simp] theorem stepRcreg_nw : (s.stepRcreg).nw = s.nw := rfl
@[simp] theorem stepRcreg_keyValue : (s.stepRcreg).keyValue = s.keyValue := rfl
@[simp] theorem stepRcreg_pcNat : (s.stepRcreg).pcNat = s.pcNat := rfl
@[simp] theorem store_var (sched : List Word) : (s.store sched).var = s.var := rfl
@[simp] theorem store_nk (sched : List Word) : (s.store sched).nk = s.nk := rfl
@[simp] theorem store_nw (sched : List Word) : (s.store sched).nw = s.nw := rfl
@[simp] theorem store_keyValue (sched : List Word) : (s.store sched).keyValue = s.keyValue := rfl
@[simp] theorem store_pcNat (sched : List Word) : (s.store sched).pcNat = s.pcNat := rfl
@[simp] theorem accept_var (keylen : Byte) (slots : List Byte) (index : Byte) : (s.accept keylen slots index).var = (classify keylen.toNat).var := rfl
@[simp] theorem accept_nk (keylen : Byte) (slots : List Byte) (index : Byte) : (s.accept keylen slots index).nk = (classify keylen.toNat).nk := rfl
@[simp] theorem accept_nw (keylen : Byte) (slots : List Byte) (index : Byte) : (s.accept keylen slots index).nw = (classify keylen.toNat).nw := rfl
@[simp] theorem accept_pcNat (keylen : Byte) (slots : List Byte) (index : Byte) : (s.accept keylen slots index).pcNat = s.pcNat := rfl
@[simp] theorem waitAtPort_var (q : Request) : (s.waitAtPort q).var = s.var := rfl
@[simp] theorem waitAtPort_nk (q : Request) : (s.waitAtPort q).nk = s.nk := rfl
@[simp] theorem waitAtPort_nw (q : Request) : (s.waitAtPort q).nw = s.nw := rfl
@[simp] theorem waitAtPort_keyValue (q : Request) : (s.waitAtPort q).keyValue = s.keyValue := rfl
@[simp] theorem waitAtPort_pcNat (q : Request) : (s.waitAtPort q).pcNat = s.pcNat := rfl
@[simp] theorem respond_var (r : Response) : (s.respond r).var = s.var := rfl
@[simp] theorem respond_nk (r : Response) : (s.respond r).nk = s.nk := rfl
@[simp] theorem respond_nw (r : Response) : (s.respond r).nw = s.nw := rfl
@[simp] theorem respond_keyValue (r : Response) : (s.respond r).keyValue = s.keyValue := rfl
@[simp] theorem respond_pcNat (r : Response) : (s.respond r).pcNat = s.pcNat := rfl
@[simp] theorem raise_var (e : KseError) : (s.raise e).var = s.var := rfl
@[simp] theorem raise_nk (e : KseError) : (s.raise e).nk = s.nk := rfl
@[simp] theorem raise_nw (e : KseError) : (s.raise e).nw = s.nw := rfl
@[simp] theorem raise_keyValue (e : KseError) : (s.raise e).keyValue = s.keyValue := rfl
@[simp] theorem raise_pcNat (e : KseError) : (s.raise e).pcNat = s.pcNat := rfl
@[simp] theorem takeResponse_var : (s.takeResponse).var = s.var := rfl
@[simp] theorem takeResponse_nk : (s.takeResponse).nk = s.nk := rfl
@[simp] theorem takeResponse_nw : (s.takeResponse).nw = s.nw := rfl
@[simp] theorem takeResponse_keyValue : (s.takeResponse).keyValue = s.keyValue := rfl
@[simp] theorem takeResponse_pcNat : (s.takeResponse).pcNat = s.pcNat := rfl
@[simp] theorem startExpansion_var : (s.startExpansion).var = s.var := rfl
@[simp] theorem startExpansion_nk : (s.startExpansion).nk = s.nk := rfl
@[simp] theorem startExpansion_nw : (s.startExpansion).nw = s.nw := rfl
@[simp] theorem startExpansion_keyValue : (s.startExpansion).keyValue = s.keyValue := rfl
@[simp] theorem abortExpansion_var (e : KseError) : (s.abortExpansion e).var = s.var := rfl
@[simp] theorem abortExpansion_nk (e : KseError) : (s.abortExpansion e).nk = s.nk := rfl
@[simp] theorem abortExpansion_nw (e : KseError) : (s.abortExpansion e).nw = s.nw := rfl
@[simp] theorem abortExpansion_keyValue (e : KseError) : (s.abortExpansion e).keyValue = s.keyValue := rfl
@[simp] theorem abortExpansion_pcNat (e : KseError) : (s.abortExpansion e).pcNat = s.pcNat := rfl
@[simp] theorem startExpansion_pcNat : s.startExpansion.pcNat = 0 := rfl

end Sys2Proof.Machine
end

