-- ==== Sys2Proof/Laws/Registers.lean ====
section
/-! SUPPORT. Reading and writing the schedule words (spec/10_state.md R28, R30) and the key latch (R22, R23). -/

namespace Sys2Proof.Machine

/-- A step reads `v` from `W[k]` exactly when the mark is set and the register holds `v`. -/
theorem readW_eq_some {s : State} {k : Nat} {v : Word} :
    s.readW k = some v ↔ s.wv[k]? = some true ∧ s.w[k]? = some v := by
  unfold State.readW
  cases h : s.wv[k]? with
  | none => simp
  | some b => cases b <;> simp

/-- A step reads no value from `W[k]` when its mark is not set. -/
theorem readW_eq_none_of_unmarked {s : State} {k : Nat} (h : s.wv[k]? = some false) : s.readW k = none := by
  simp [State.readW, h]

/-- A marked register has a value. -/
theorem readW_isSome_of_marked {s : State} {k : Nat} (h : s.wv[k]? = some true) : ∃ v, s.readW k = some v := by
  have hk : k < 60 := by
    by_contra hk
    rw [Vector.getElem?_eq_none (by omega)] at h
    cases h
  exact ⟨s.w[k], readW_eq_some.2 ⟨h, Vector.getElem?_eq_getElem hk⟩⟩

/-- Read after write, the same register. -/
theorem readW_writeW_same (s : State) {k : Nat} (hk : k < 60) (v : Word) : (s.writeW k v).readW k = some v := by
  rw [readW_eq_some]
  simp [hk]

/-- Read after write, another register. -/
theorem readW_writeW_other (s : State) {k i : Nat} (h : i ≠ k) (v : Word) :
    (s.writeW k v).readW i = s.readW i := by
  simp [State.readW, Ne.symm h]

/-- What `writeW` does to the register file and the marks. -/
theorem writeW_wrote (s : State) {k : Nat} (hk : k < 60) (v : Word) :
    (s.writeW k v).w[k]? = some v ∧ (s.writeW k v).wv[k]? = some true ∧
      ∀ i, i ≠ k → (s.writeW k v).w[i]? = s.w[i]? ∧ (s.writeW k v).wv[i]? = s.wv[i]? := by
  refine ⟨by simp [hk], by simp [hk], fun i hi => ?_⟩
  simp [Ne.symm hi]

/-- After the start of an expansion no word can be read (R200, R30). -/
theorem startExpansion_readW (s : State) (k : Nat) : s.startExpansion.readW k = none := by
  by_cases hk : k < 60 <;> simp [State.readW, hk]

/-- The selector outputs in every legal row: NK is 4, 6 or 8, at most NW, and NW is at most 60 (R25). -/
theorem classify_bounds (n : Nat) :
    (classify n).nk ≤ 8 ∧ (classify n).nk ≤ (classify n).nw ∧ (classify n).nw ≤ 60 := by
  unfold classify
  split
  · decide
  split
  · decide
  split <;> decide

theorem nk_le (s : State) : s.nk ≤ 8 := (classify_bounds _).1
theorem nk_le_nw (s : State) : s.nk ≤ s.nw := (classify_bounds _).2.1
theorem nw_le (s : State) : s.nw ≤ 60 := (classify_bounds _).2.2

/-- The rows of the classification table (R120), for a case split. -/
theorem classify_cases (n : Nat) :
    (n = 16 ∧ classify n = ⟨0#2, 4, 10, 44⟩) ∨ (n = 24 ∧ classify n = ⟨1#2, 6, 12, 52⟩) ∨
      (n = 32 ∧ classify n = ⟨2#2, 8, 14, 60⟩) ∨
      (n ≠ 16 ∧ n ≠ 24 ∧ n ≠ 32 ∧ classify n = ⟨3#2, 0, 0, 0⟩) := by
  unfold classify
  by_cases h1 : n = 16
  · simp [h1]
  by_cases h2 : n = 24
  · simp [h2]
  by_cases h3 : n = 32
  · simp [h3]
  simp [h1, h2, h3]

/-- `pc + 1` below 63 does not wrap (R27). -/
theorem advance_pcNat {s : State} (h : s.pcNat < 63) : s.advance.pcNat = s.pcNat + 1 := by
  unfold State.pcNat State.advance at *
  simp only [BitVec.toNat_add]
  have : (1#6 : BitVec 6).toNat = 1 := rfl
  omega

/-- Byte `k` of the latch after acceptance is slot `k` (R22). -/
theorem accept_keyByte (s : State) (keylen index : Byte) (slots : List Byte) {k : Nat} (hk : k < 32) :
    (s.accept keylen slots index).keyByte k = slots.getD k 0#8 := by
  simp [State.keyByte, hk]

/-- The latched bytes after acceptance are the 32 slots (R22). -/
theorem accept_key_toList (s : State) (keylen index : Byte) {slots : List Byte} (h : slots.length = 32) :
    (s.accept keylen slots index).key.toList = slots := by
  apply List.ext_getElem
  · simp [h]
  · intro i h1 h2
    simp [h2]

/-- The latched key value after acceptance is the request's key (R23, R93). -/
theorem accept_keyValue (s : State) (keylen index : Byte) {slots : List Byte} (h : slots.length = 32) :
    (s.accept keylen slots index).keyValue = requestKey keylen slots := by
  unfold State.keyValue requestKey
  rw [accept_key_toList s keylen index h]
  rfl

/-- A key byte of the latch as a list element. -/
theorem keyByte_eq_getD (s : State) (k : Nat) : s.keyByte k = s.key.toList.getD k 0#8 := by
  simp [State.keyByte, List.getD_eq_getElem?_getD]

end Sys2Proof.Machine
end

