-- ==== Sys2Proof/Laws/Cache.lean ====
section
/-! SUPPORT. The cache: its canonical form is kept by every operation (log entry 8), a store is found again, and other
keys and banks are left alone (spec/46_getroundkey.md R249). -/

namespace Sys2Proof.Machine

/-! ## The rank of a key -/

theorem packBytes_append (a : List Byte) (b : Byte) : packBytes (a ++ [b]) = packBytes a * 256 + b.toNat := by
  simp [packBytes]

/-- Keys of one length with the same number are the same key. -/
theorem packBytes_injective : ∀ {a b : List Byte}, a.length = b.length → packBytes a = packBytes b → a = b := by
  intro a
  induction a using List.reverseRecOn with
  | nil => intro b hl _; exact (List.length_eq_zero_iff.1 hl.symm).symm
  | append_singleton a x ih =>
    intro b hl hp
    rcases List.eq_nil_or_concat b with rfl | ⟨b', y, rfl⟩
    · simp at hl
    · rw [List.concat_eq_append] at hl hp ⊢
      rw [packBytes_append, packBytes_append] at hp
      have hx := x.isLt
      have hy := y.isLt
      have hn : packBytes a = packBytes b' := by omega
      have hxy : x.toNat = y.toNat := by omega
      rw [ih (by simpa using hl) hn, BitVec.eq_of_toNat_eq hxy]

/-! ## The canonical form of one bank -/

theorem bankWf_iff {n : Nat} {bank : List Entry} :
    bankWf n bank = true ↔ (∀ e ∈ bank, e.key.length = n) ∧ bank.Pairwise fun x y => x.rank < y.rank := by
  simp [bankWf]

theorem mem_bankInsert {e x : Entry} {bank : List Entry} (h : x ∈ bankInsert e bank) : x = e ∨ x ∈ bank := by
  induction bank with
  | nil => simpa [bankInsert] using h
  | cons y ys ih =>
    unfold bankInsert at h
    split at h
    · simpa using h
    split at h
    · rcases List.mem_cons.1 h with h | h
      · exact .inl h
      · exact .inr (List.mem_cons_of_mem _ h)
    · rcases List.mem_cons.1 h with h | h
      · exact .inr (h ▸ List.mem_cons_self)
      · rcases ih h with h | h
        · exact .inl h
        · exact .inr (List.mem_cons_of_mem _ h)

/-- Inserting a key of the bank's length keeps the canonical form. -/
theorem bankInsert_wf {n : Nat} {e : Entry} {bank : List Entry} (he : e.key.length = n) (h : bankWf n bank = true) :
    bankWf n (bankInsert e bank) = true := by
  rw [bankWf_iff] at h ⊢
  obtain ⟨hlen, hsort⟩ := h
  refine ⟨fun x hx => ?_, ?_⟩
  · rcases mem_bankInsert hx with rfl | hx
    · exact he
    · exact hlen x hx
  · induction bank with
    | nil => simp [bankInsert]
    | cons y ys ih =>
      have hy := List.pairwise_cons.1 hsort
      unfold bankInsert
      split
      · rename_i hlt
        refine List.pairwise_cons.2 ⟨fun z hz => ?_, hsort⟩
        rcases List.mem_cons.1 hz with rfl | hz
        · exact hlt
        · exact lt_trans hlt (hy.1 z hz)
      split
      · rename_i heq
        refine List.pairwise_cons.2 ⟨fun z hz => ?_, hy.2⟩
        have := hy.1 z hz
        simpa [Entry.rank, heq] using this
      · rename_i hlt hne
        refine List.pairwise_cons.2 ⟨fun z hz => ?_, ih (fun x hx => hlen x (List.mem_cons_of_mem _ hx)) hy.2⟩
        rcases mem_bankInsert hz with rfl | hz
        · have hyl := hlen y List.mem_cons_self
          rcases Nat.lt_or_ge y.rank z.rank with h | h
          · exact h
          · exact absurd (packBytes_injective (he.trans hyl.symm) (show z.rank = y.rank by omega)) hne
        · exact hy.1 z hz

/-- Evicting keeps the canonical form. -/
theorem bankEvict_wf {n k : Nat} {bank : List Entry} (h : bankWf n bank = true) : bankWf n (bankEvict k bank) = true := by
  rw [bankWf_iff] at h ⊢
  have hs : List.Sublist (bankEvict k bank) bank := List.eraseIdx_sublist _ _
  exact ⟨fun e he => h.1 e (hs.subset he), h.2.sublist hs⟩

/-- Storing a key of the bank's length keeps the canonical form. -/
theorem bankStore_wf {n k : Nat} {cap : Option Nat} {e : Entry} {bank : List Entry} (he : e.key.length = n)
    (h : bankWf n bank = true) : bankWf n (bankStore cap k bank e) = true := by
  unfold bankStore
  split
  · exact h
  split
  · exact bankInsert_wf he (bankEvict_wf h)
  · exact bankInsert_wf he h

/-! ## The canonical form of the whole cache -/

theorem memory_wf_iff {c : Cache} :
    Memory.wf c = true ↔ bankWf 16 c.bank128 = true ∧ bankWf 24 c.bank192 = true ∧ bankWf 32 c.bank256 = true := by
  simp [Memory.wf, and_assoc]

/-- The length of the latched key value, when KEYLEN selects a variant (R23). -/
theorem keyValue_length {s : State} (h : s.var ≠ 3#2) : s.keyValue.length = s.keylen.toNat := by
  have := classify_cases s.keylen.toNat
  simp only [State.var, State.variant] at h
  rw [State.keyValue, List.length_take, Vector.length_toList]
  rcases this with ⟨h1, -⟩ | ⟨h1, -⟩ | ⟨h1, -⟩ | ⟨-, -, -, h1⟩
  · omega
  · omega
  · omega
  · rw [h1] at h; exact absurd rfl h

/-- The variant of the latched key value is the latched KEYLEN's (R23, R25). -/
theorem classify_keyValue {s : State} (h : s.var ≠ 3#2) : classify s.keyValue.length = s.variant := by
  rw [keyValue_length h]; rfl

/-- `Store` keeps the canonical form of the cache (R249, log entry 8). -/
theorem store_wf {s : State} (sched : List Word) (h : Memory.wf s.cache = true) :
    Memory.wf (s.store sched).cache = true := by
  rw [memory_wf_iff] at h ⊢
  obtain ⟨h1, h2, h3⟩ := h
  rcases classify_cases s.keylen.toNat with ⟨hk, hc⟩ | ⟨hk, hc⟩ | ⟨hk, hc⟩ | ⟨-, -, -, hc⟩
  · have hv : s.var = 0#2 := by simp [State.var, State.variant, hc]
    have hl := keyValue_length (s := s) (by rw [hv]; decide)
    simp only [store_cache, hv, Cache.setBank, Cache.bank, if_true]
    exact ⟨bankStore_wf (hl.trans hk) h1, h2, h3⟩
  · have hv : s.var = 1#2 := by simp [State.var, State.variant, hc]
    have hl := keyValue_length (s := s) (by rw [hv]; decide)
    simp [store_cache, hv, Cache.setBank, Cache.bank]
    exact ⟨h1, bankStore_wf (hl.trans hk) h2, h3⟩
  · have hv : s.var = 2#2 := by simp [State.var, State.variant, hc]
    have hl := keyValue_length (s := s) (by rw [hv]; decide)
    simp [store_cache, hv, Cache.setBank, Cache.bank]
    exact ⟨h1, h2, bankStore_wf (hl.trans hk) h3⟩
  · have hv : s.var = 3#2 := by simp [State.var, State.variant, hc]
    simp [store_cache, hv, Cache.setBank]
    exact ⟨h1, h2, h3⟩

/-- The reset cache is in canonical form. -/
theorem reset_wf : Memory.wf State.reset.cache = true := by decide

/-! ## Banks -/

/-- The four variant codes (R104). -/
theorem var_cases : ∀ v : BitVec 2, v = 0#2 ∨ v = 1#2 ∨ v = 2#2 ∨ v = 3#2 := by decide

theorem bank_setBank_same {c : Cache} {var : BitVec 2} (h : var ≠ 3#2) (b : List Entry) :
    (c.setBank var b).bank var = b := by
  rcases var_cases var with rfl | rfl | rfl | rfl
  · rfl
  · rfl
  · rfl
  · exact absurd rfl h

theorem bank_setBank_other {c : Cache} {var v : BitVec 2} (h : v ≠ var) (b : List Entry) :
    (c.setBank var b).bank v = c.bank v := by
  rcases var_cases var with rfl | rfl | rfl | rfl <;> rcases var_cases v with rfl | rfl | rfl | rfl <;>
    first | rfl | exact absurd rfl h

/-! ## Lookup after insertion -/

theorem find?_bankInsert_same (e : Entry) (bank : List Entry) :
    (bankInsert e bank).find? (·.key == e.key) = some e := by
  induction bank with
  | nil => simp [bankInsert]
  | cons y ys ih =>
    unfold bankInsert
    split
    · simp
    split
    · simp
    · rename_i hne
      rw [List.find?_cons_of_neg (by simpa using fun h => hne h.symm)]
      exact ih

theorem find?_bankInsert_other {e : Entry} {k : List Byte} (h : k ≠ e.key) (bank : List Entry) :
    (bankInsert e bank).find? (·.key == k) = bank.find? (·.key == k) := by
  have he : (e.key == k) = false := by simpa using fun x => h x.symm
  induction bank with
  | nil => simp [bankInsert, he]
  | cons y ys ih =>
    unfold bankInsert
    split
    · simp [List.find?_cons, he]
    split
    · rename_i heq
      simp [he, ← heq]
    · simp only [List.find?_cons, ih]

/-- Adding an entry of a new key adds that entry and loses none (R249). -/
theorem bankInsert_perm {e : Entry} {bank : List Entry} (h : ∀ x ∈ bank, x.key ≠ e.key) :
    List.Perm (bankInsert e bank) (e :: bank) := by
  induction bank with
  | nil => exact List.Perm.refl _
  | cons y ys ih =>
    unfold bankInsert
    split
    · exact List.Perm.refl _
    split
    · rename_i hy; exact absurd hy.symm (h y List.mem_cons_self)
    · exact ((ih fun x hx => h x (List.mem_cons_of_mem _ hx)).cons y).trans (List.Perm.swap _ _ _)

/-- Removing one entry changes the lookup of no key but its own (R249). -/
theorem find?_eraseIdx_other {key : List Byte} {bank : List Entry} {v : Nat}
    (h : ∀ x, bank[v]? = some x → x.key ≠ key) :
    (bank.eraseIdx v).find? (·.key == key) = bank.find? (·.key == key) := by
  induction bank generalizing v with
  | nil => rfl
  | cons y ys ih =>
    cases v with
    | zero => simp [h y rfl]
    | succ v => simp only [List.eraseIdx_cons_succ, List.find?_cons, ih h]

/-- What a hit returns stands in the bank under the key (R38, R247). -/
theorem lookup_mem {c : Cache} {var : BitVec 2} {key : List Byte} {sched : List Word}
    (h : c.lookup var key = some sched) : ∃ e ∈ c.bank var, e.key = key ∧ e.sched = sched := by
  unfold Cache.lookup at h
  obtain ⟨e, he, hs⟩ := Option.map_eq_some_iff.1 h
  exact ⟨e, List.mem_of_find?_eq_some he, by simpa using List.find?_some he, hs⟩

/-! ## What a store leaves in a bank (R249) -/

theorem mem_bankStore {cap : Option Nat} {n : Nat} {bank : List Entry} {e x : Entry} (h : x ∈ bankStore cap n bank e) : x = e ∨ x ∈ bank := by
  unfold bankStore at h
  split at h
  · exact .inr h
  split at h
  · rcases mem_bankInsert h with h | h
    · exact .inl h
    · exact .inr ((List.eraseIdx_sublist _ _).subset h)
  · exact mem_bankInsert h

theorem length_bankInsert_le (e : Entry) (b : List Entry) : (bankInsert e b).length ≤ b.length + 1 := by
  induction b with
  | nil => simp [bankInsert]
  | cons y ys ih =>
    unfold bankInsert
    split
    · simp
    split
    · simp
    · simp [ih]

theorem length_bankStore_le {c n : Nat} {bank : List Entry} {e : Entry} (h : bank.length ≤ c) : (bankStore (some c) n bank e).length ≤ c := by
  unfold bankStore bankFull
  split
  · exact h
  rename_i h0
  have h0 : c ≠ 0 := by simpa using h0
  simp only [decide_eq_true_eq]
  split
  · rename_i hf
    have := length_bankInsert_le e (bankEvict n bank)
    have hl : (bankEvict n bank).length + 1 = bank.length := by
      unfold bankEvict
      rw [List.length_eraseIdx_of_lt (Nat.mod_lt _ (by omega))]
      omega
    omega
  · have := length_bankInsert_le e bank; omega

end Sys2Proof.Machine
end

