-- ==== Sys2Proof/Laws/Encoding.lean ====
section
/-! SUPPORT. The bytes of a request word (spec/30_encoding.md R91), and which instructions a step control word can stand
for (R99). -/

namespace Sys2Proof.Machine

/-- The number of a byte string is below 256 to its length. -/
theorem packBytes_lt (l : List Byte) : packBytes l < 256 ^ l.length := by
  induction l using List.reverseRecOn with
  | nil => simp [packBytes]
  | append_singleton a x ih =>
    rw [packBytes_append, List.length_append, List.length_singleton, Nat.pow_succ]
    have := x.isLt; omega

/-- Byte `k` of the string is digit `length - 1 - k` of its number. -/
theorem packBytes_digit (l : List Byte) : ∀ k (h : k < l.length),
    packBytes l / 256 ^ (l.length - 1 - k) % 256 = l[k].toNat := by
  induction l using List.reverseRecOn with
  | nil => intro k h; simp at h
  | append_singleton a x ih =>
    intro k h
    rw [packBytes_append]
    simp only [List.length_append, List.length_singleton, Nat.add_sub_cancel] at h ⊢
    have := x.isLt
    rcases Nat.lt_or_ge k a.length with hk | hk
    · rw [List.getElem_append_left hk, ← ih k hk]
      rw [show a.length - k = (a.length - 1 - k) + 1 by omega, Nat.pow_succ', ← Nat.div_div_eq_div_mul]
      congr 2
      omega
    · obtain rfl : k = a.length := by omega
      simp
      omega

/-- The 34 bytes of a request fill its 272 bits exactly (R91). -/
theorem request_toNat (l : List Byte) (h : l.length = 34) :
    (BitVec.ofNat 272 (packBytes l)).toNat = packBytes l := by
  have hlt := packBytes_lt l
  have hpow : (256 : Nat) ^ 34 = 2 ^ 272 := by
    rw [show (256 : Nat) = 2 ^ 8 from rfl, ← Nat.pow_mul]
  rw [h, hpow] at hlt
  rw [BitVec.toNat_ofNat, Nat.mod_eq_of_lt hlt]

/-- Byte `k` of a request, most significant first, is bits `8*(33-k) + 7 .. 8*(33-k)` (R91). -/
theorem request_byte (l : List Byte) (h : l.length = 34) (k : Nat) (hk : k < 34) :
    (BitVec.ofNat 272 (packBytes l)).extractLsb' (8 * (33 - k)) 8 = l[k] := by
  apply BitVec.eq_of_toNat_eq
  rw [BitVec.extractLsb'_toNat, request_toNat l h, ← packBytes_digit l k (by omega), h, Nat.shiftRight_eq_div_pow]
  rw [Nat.pow_mul]

/-- No step control word decodes to `GETRK` (R90, R99). -/
theorem decodeStep_ne_getrk {w : StepWord} {i} (h : decodeStep w = .ok i) : ∀ a b c, i ≠ .getrk a b c := by
  rintro a b c rfl
  have : ∀ w : BitVec 8,
      (match (decodeStep w).toOption with | some (.getrk _ _ _) => false | _ => true) = true := by decide +kernel
  have := this w
  rw [h] at this; cases this

end Sys2Proof.Machine
end

