-- ==== Sys2Proof/Laws/Expand.lean ====
section
/-! SUPPORT. The pure function `Expand` (spec/45_expand_steps.md R220, R221): it always succeeds, and everything it does.
-/

namespace Sys2Proof.Machine

/-- Every round-constant index an expansion uses is below 10 (R129). -/
theorem xg_index_lt (n i : Nat) (hi : i < (classify n).nw) : i / (classify n).nk - 1 < 10 := by
  rcases classify_cases n with ⟨-, h⟩ | ⟨-, h⟩ | ⟨-, h⟩ | ⟨-, -, -, h⟩ <;> rw [h] at hi ⊢ <;> simp only at hi ⊢ <;> omega

/-- Inside an expansion the special branches never raise (R129, R214). -/
theorem transformTemp_ok (table : SboxTable) (n i : Nat) (hi : i < (classify n).nw) (t : Word) :
    ∃ v, transformTemp table (classify n).nk i t = .ok v := by
  unfold transformTemp
  obtain ⟨c, hc⟩ := rcon_ok_of_lt (xg_index_lt n i hi)
  split
  · rw [hc]; exact ⟨_, rfl⟩
  split
  · exact ⟨_, rfl⟩
  · exact ⟨_, rfl⟩

/-- Inside an expansion the next word always exists. -/
theorem nextWord_ok (table : SboxTable) (n i : Nat) (hi : i < (classify n).nw) (w : List Word) :
    ∃ v, nextWord table (classify n).nk i w = .ok v := by
  unfold nextWord
  obtain ⟨v, hv⟩ := transformTemp_ok table n i hi (w.getD (i-1) 0)
  rw [hv]; exact ⟨_, rfl⟩

/-- The second loop of `Expand` never raises while it stays below NW. -/
theorem expandLoop_ok (table : SboxTable) (n : Nat) : ∀ (k i : Nat) (w : List Word), i + k ≤ (classify n).nw →
    ∃ out, expandLoop table (classify n).nk k i w = .ok out := by
  intro k
  induction k with
  | zero => intro i w _; exact ⟨w, rfl⟩
  | succ k ih =>
    intro i w h
    obtain ⟨v, hv⟩ := nextWord_ok table n i (by omega) w
    unfold expandLoop
    rw [hv]
    exact ih (i+1) _ (by omega)

/-- `Expand` succeeds on every key; on a key of a length that is no variant it yields no words. -/
theorem expand_ok (table : SboxTable) (key : List Byte) : ∃ sched, expand table key = .ok sched := by
  unfold expand
  exact expandLoop_ok table key.length _ _ _ (by have := (classify_bounds key.length).2.1; omega)

/-- Everything the second loop of `Expand` does: the length it reaches, the words it leaves, the words it appends. -/
theorem expandLoop_spec {table : SboxTable} (nk : Nat) (hnk : 0 < nk) : ∀ (k i : Nat) (w out : List Word), nk ≤ i → w.length = i →
    expandLoop table nk k i w = .ok out →
    out.length = i + k ∧ (∀ m, m < i → out[m]? = w[m]?) ∧
    ∀ m, i ≤ m → m < i + k → ∃ v, nextWord table nk m out = .ok v ∧ out[m]? = some v := by
  intro k
  induction k with
  | zero =>
    intro i w out _ hl h
    simp [expandLoop] at h
    subst h
    exact ⟨by simpa using hl, fun _ _ => rfl, fun m h1 h2 => by omega⟩
  | succ k ih =>
    intro i w out hi hl h
    unfold expandLoop at h
    cases hv : nextWord table nk i w with
    | error e => rw [hv] at h; cases h
    | ok v =>
      rw [hv] at h
      obtain ⟨h1, h2, h3⟩ := ih (i+1) (w ++ [v]) out (by omega) (by simp [hl]) h
      refine ⟨by omega, fun m hm => ?_, fun m hm1 hm2 => ?_⟩
      · rw [h2 m (by omega), List.getElem?_append_left (by omega)]
      · rcases Nat.lt_or_ge i m with hlt | hge
        · exact h3 m (by omega) (by omega)
        · obtain rfl : m = i := by omega
          refine ⟨v, ?_, ?_⟩
          · rw [← hv]
            unfold nextWord
            have e1 : out.getD (m-1) 0 = w.getD (m-1) 0 := by
              simp only [List.getD_eq_getElem?_getD]
              rw [h2 _ (by omega), List.getElem?_append_left (by omega)]
            have e2 : out.getD (m-nk) 0 = w.getD (m-nk) 0 := by
              simp only [List.getD_eq_getElem?_getD]
              rw [h2 _ (by omega), List.getElem?_append_left (by omega)]
            rw [e1, e2]
          · rw [h2 m (by omega)]
            simp [hl]

/-- A word of the first loop of `Expand` (R220, R63). -/
theorem keyWords_getElem? (key : List Byte) (nk i : Nat) (h : i < nk) :
    (keyWords key nk)[i]? = some (word32 (key.getD (4 * i) 0) (key.getD (4 * i + 1) 0) (key.getD (4 * i + 2) 0) (key.getD (4 * i + 3) 0)) := by
  simp [keyWords, h]

/-- NK is at least 4 for every variant (R25). -/
theorem four_le_nk {n : Nat} (h : (classify n).var ≠ 3#2) : 4 ≤ (classify n).nk := by
  rcases classify_cases n with ⟨-, h'⟩ | ⟨-, h'⟩ | ⟨-, h'⟩ | ⟨-, -, -, h'⟩ <;> rw [h'] at h ⊢ <;> simp at h ⊢

/-- Everything `Expand` does on a key of legal length (R220, R221): its length, its first NK words, and the
recurrence of the others. -/
theorem expand_spec {table : SboxTable} {key : List Byte} {sched : List Word} (hv : (classify key.length).var ≠ 3#2)
    (h : expand table key = .ok sched) :
    sched.length = (classify key.length).nw ∧
    (∀ i, i < (classify key.length).nk → sched[i]? = some (word32 (key.getD (4 * i) 0) (key.getD (4 * i + 1) 0)
      (key.getD (4 * i + 2) 0) (key.getD (4 * i + 3) 0))) ∧
    ∀ i, (classify key.length).nk ≤ i → i < (classify key.length).nw →
      ∃ v, nextWord table (classify key.length).nk i sched = .ok v ∧ sched[i]? = some v := by
  have hp := four_le_nk hv
  have hb := (classify_bounds key.length).2.1
  obtain ⟨h1, h2, h3⟩ := expandLoop_spec _ (by omega) _ _ _ _ (le_refl _) (by simp [keyWords]) h
  refine ⟨by omega, fun i hi => ?_, fun i h4 h5 => h3 i h4 (by omega)⟩
  rw [h2 i hi, keyWords_getElem? key _ i hi]

end Sys2Proof.Machine
end

