-- ==== Sys2Proof/Laws/Steps.lean ====
section
/-! SUPPORT. Everything the shared step operations can do, once each; the provers cite these and do not unfold the
operations. -/

namespace Sys2Proof.Machine

/-! The step instructions are the shared operations (R210 to R213). -/

theorem exec_kld (s : State) : exec .kld s = loadKeyWord s := rfl
theorem exec_xp (s : State) : exec .xp s = chainStep false false false 0 s := rfl
theorem exec_xs (s : State) : exec .xs s = chainStep false true false 0 s := rfl
theorem exec_xg (j : Nat) (s : State) : exec (.xg j) s = chainStep true true true j s := rfl

/-- Everything the key load can do (R210, R103). -/
theorem loadKeyWord_cases (s : State) :
    (s.pcNat < s.nk ∧
      loadKeyWord s = .next (s.writeW s.pcNat (s.readKey (4 * s.pcNat))).advance) ∨
    (s.nk ≤ s.pcNat ∧ loadKeyWord s = .refused (.illegalPosition s.pcNat)) := by
  unfold loadKeyWord
  by_cases h : s.pcNat < s.nk
  · exact .inl ⟨h, if_pos h⟩
  · exact .inr ⟨by omega, if_neg h⟩

/-- The chain outside its legal positions (R103). -/
theorem chainStep_illegal {rot sub rce : Bool} {j : Nat} {s : State} (h : ¬(s.nk ≤ s.pcNat ∧ s.pcNat < s.nw)) :
    chainStep rot sub rce j s = .refused (.illegalPosition s.pcNat) := by
  unfold chainStep
  rw [if_neg h]

/-- The chain on an unwritten first source (R283). -/
theorem chainStep_unwritten_prev {rot sub rce : Bool} {j : Nat} {s : State}
    (h : s.nk ≤ s.pcNat ∧ s.pcNat < s.nw) (hr : s.readW (s.pcNat - 1) = none) :
    chainStep rot sub rce j s = .fault (.unwrittenRead (s.pcNat - 1) s.pcNat) := by
  unfold chainStep
  rw [if_pos h, hr]

/-- The chain when the constant is out of range (R214). -/
theorem chainStep_error {rot sub rce : Bool} {j : Nat} {s : State} {t0 : Word} {e : KseError}
    (h : s.nk ≤ s.pcNat ∧ s.pcNat < s.nw) (hr : s.readW (s.pcNat - 1) = some t0)
    (he : rconStage rce j (subStage s.sboxRom sub (rotStage rot t0)) = .error e) :
    chainStep rot sub rce j s = .next ((s.setTemp (subStage s.sboxRom sub (rotStage rot t0))).abortExpansion e) := by
  unfold chainStep
  rw [if_pos h, hr]
  simp only [he]

/-- The chain on an unwritten second source (R283). -/
theorem chainStep_unwritten_back {rot sub rce : Bool} {j : Nat} {s : State} {t0 t3 : Word}
    (h : s.nk ≤ s.pcNat ∧ s.pcNat < s.nw) (hr : s.readW (s.pcNat - 1) = some t0)
    (ht : rconStage rce j (subStage s.sboxRom sub (rotStage rot t0)) = .ok t3)
    (hb : s.readW (s.pcNat - s.nk) = none) :
    chainStep rot sub rce j s = .fault (.unwrittenRead (s.pcNat - s.nk) s.pcNat) := by
  unfold chainStep
  rw [if_pos h, hr]
  simp only [ht, hb]

/-- The chain when it completes (R100, R211 to R213). -/
theorem chainStep_done {rot sub rce : Bool} {j : Nat} {s : State} {t0 t3 back : Word}
    (h : s.nk ≤ s.pcNat ∧ s.pcNat < s.nw) (hr : s.readW (s.pcNat - 1) = some t0)
    (ht : rconStage rce j (subStage s.sboxRom sub (rotStage rot t0)) = .ok t3)
    (hb : s.readW (s.pcNat - s.nk) = some back) :
    chainStep rot sub rce j s =
      .next (if rce then (((s.setTemp t3).writeW s.pcNat (xorW back t3)).advance).stepRcreg
             else ((s.setTemp t3).writeW s.pcNat (xorW back t3)).advance) := by
  unfold chainStep
  rw [if_pos h, hr]
  simp only [ht, hb]

/-- Everything the chain can do when it answers a next state. -/
theorem chainStep_next {rot sub rce : Bool} {j : Nat} {s t : State} (h : chainStep rot sub rce j s = .next t) :
    (s.nk ≤ s.pcNat ∧ s.pcNat < s.nw) ∧ ∃ t0, s.readW (s.pcNat - 1) = some t0 ∧
      ((∃ e, rconStage rce j (subStage s.sboxRom sub (rotStage rot t0)) = .error e ∧
          t = (s.setTemp (subStage s.sboxRom sub (rotStage rot t0))).abortExpansion e) ∨
       (∃ t3 back, rconStage rce j (subStage s.sboxRom sub (rotStage rot t0)) = .ok t3 ∧
          s.readW (s.pcNat - s.nk) = some back ∧
          t = if rce then (((s.setTemp t3).writeW s.pcNat (xorW back t3)).advance).stepRcreg
              else ((s.setTemp t3).writeW s.pcNat (xorW back t3)).advance)) := by
  by_cases hl : s.nk ≤ s.pcNat ∧ s.pcNat < s.nw
  · refine ⟨hl, ?_⟩
    cases hr : s.readW (s.pcNat - 1) with
    | none => rw [chainStep_unwritten_prev hl hr] at h; cases h
    | some t0 =>
      refine ⟨t0, rfl, ?_⟩
      cases ht : rconStage rce j (subStage s.sboxRom sub (rotStage rot t0)) with
      | error e =>
        rw [chainStep_error hl hr ht] at h
        injection h with h
        exact .inl ⟨e, rfl, h.symm⟩
      | ok t3 =>
        cases hb : s.readW (s.pcNat - s.nk) with
        | none => rw [chainStep_unwritten_back hl hr ht hb] at h; cases h
        | some back =>
          rw [chainStep_done hl hr ht hb] at h
          injection h with h
          exact .inr ⟨t3, back, rfl, rfl, h.symm⟩
  · rw [chainStep_illegal hl] at h
    cases h

/-- A step control word runs as the instruction it decodes to, wherever it is run (R201). -/
theorem execStepWord_eq_exec {w : StepWord} {i : Instr} (h : decodeStep w = .ok i)
    (hi : ∀ a b c, i ≠ .getrk a b c) (s : State) : execStepWord w s = exec i s := by
  unfold execStepWord
  rw [h]
  cases i with
  | getrk a b c => exact absurd rfl (hi a b c)
  | kld => rfl
  | xp => rfl
  | xs => rfl
  | xg j => rfl

/-- The one error a step can raise (R172, R214). -/
theorem rconStage_error {rce : Bool} {j : Nat} {t : Word} {e : KseError} (h : rconStage rce j t = .error e) : e = .indexOutOfRange := by
  unfold rconStage at h
  split at h
  · unfold rcon at h
    split at h
    · cases h
    · rename_i h'
      split at h'
      · cases h'
      · injection h' with h'; injection h with h; rw [← h, ← h']
  · cases h

/-- Everything a step instruction can do when it answers a next state: it completes at a legal position and advances
the pc, or it raises IndexOutOfRange (R210 to R214). -/
theorem exec_step_next {i : Instr} {s t : State} (hi : ∀ a b c, i ≠ .getrk a b c) (h : exec i s = .next t) :
    (OnlyDatapathChanged s t ∧ t.pcNat = s.pcNat + 1 ∧ s.pcNat < s.nw) ∨
    (∃ x, t = (s.setTemp x).abortExpansion .indexOutOfRange) := by
  have key : ∀ rot sub rce j, chainStep rot sub rce j s = .next t →
      (OnlyDatapathChanged s t ∧ t.pcNat = s.pcNat + 1 ∧ s.pcNat < s.nw) ∨
      (∃ x, t = (s.setTemp x).abortExpansion .indexOutOfRange) := by
    intro rot sub rce j h
    obtain ⟨hl, t0, h0, ⟨e, he, rfl⟩ | ⟨t3, back, -, -, rfl⟩⟩ := chainStep_next h
    · obtain rfl := rconStage_error he
      exact .inr ⟨_, rfl⟩
    · have h60 := nw_le s
      have ha : ((s.setTemp t3).writeW s.pcNat (xorW back t3)).advance.pcNat = s.pcNat + 1 :=
        advance_pcNat (by simp; omega)
      cases rce <;> exact .inl ⟨rfl, ha, hl.2⟩
  cases i with
  | getrk a b c => exact absurd rfl (hi a b c)
  | kld =>
    rcases loadKeyWord_cases s with ⟨hl, h'⟩ | ⟨hl, h'⟩
    · simp only [exec, execKld] at h
      rw [h'] at h; injection h with h; subst h
      have := nk_le s
      have := nk_le_nw s
      exact .inl ⟨rfl, advance_pcNat (by simp; omega), by omega⟩
    · simp only [exec, execKld] at h; rw [h'] at h; cases h
  | xp => exact key _ _ _ _ ((exec_xp s).symm.trans h)
  | xs => exact key _ _ _ _ ((exec_xs s).symm.trans h)
  | xg j => exact key _ _ _ _ ((exec_xg j s).symm.trans h)

end Sys2Proof.Machine
end

