-- ==== Sys2Proof/Laws/Moves.lean ====
section
/-! SUPPORT. Everything one move of the machine can do, one lemma per case, and runs of several steps. The provers cite
these and do not unfold `step`. -/

namespace Sys2Proof.Machine

/-! ## Who moves (spec/46_getroundkey.md R241, R243, R253; spec/70_reset_and_hazards.md R310; log entry 2) -/

theorem step_of_no_host {s : State} (h : s.host = []) : step s = kseMove s := by
  unfold step machineMove
  rw [h]

theorem step_of_tick {s : State} {moves : List HostMove} (h : s.host = .tick :: moves) :
    step s = kseMove { s with host := moves } := by
  unfold step machineMove
  rw [h]

theorem step_of_offer {s : State} {q : Request} {moves : List HostMove} (h : s.host = .offer q :: moves) :
    step s = .next { s with host := moves, port := s.port ++ [q] } := by
  unfold step machineMove
  rw [h]

theorem step_of_take {s : State} {moves : List HostMove} (h : s.host = .take :: moves) (hv : s.resp.valid = true) :
    step s = .next { s.takeResponse with host := moves } := by
  unfold step machineMove
  rw [h]
  exact if_pos hv

theorem step_of_take_waiting {s : State} {moves : List HostMove} (h : s.host = .take :: moves)
    (hv : s.resp.valid = false) : step s = kseMove s := by
  unfold step machineMove
  rw [h]
  exact if_neg (by rw [hv]; decide)

theorem step_of_reset {s : State} {moves : List HostMove} (h : s.host = .reset :: moves) :
    step s = .next { s.resetInput with host := moves } := by
  unfold step machineMove
  rw [h]

/-! ## What KSE does with its move -/

theorem kseMove_of_program {s : State} {words : List StepWord} (h : s.program = some words) :
    kseMove s = programMove words s := by
  unfold kseMove
  rw [h]

theorem kseMove_of_busy {s : State} (hp : s.program = none) (hb : s.busy = true) : kseMove s = sequencerMove s := by
  unfold kseMove
  rw [hp]
  exact if_pos hb

theorem kseMove_of_idle {s : State} (hp : s.program = none) (hb : s.busy = false) (hq : s.port = []) :
    kseMove s = .next s := by
  unfold kseMove
  rw [hp, hb, hq]
  rfl

theorem kseMove_of_request {s : State} {q : Request} {rest : List Request} (hp : s.program = none)
    (hb : s.busy = false) (hq : s.port = q :: rest) : kseMove s = serveRequest q { s with port := rest } := by
  unfold kseMove
  rw [hp]
  show (if s.busy = true then _ else _) = _
  rw [if_neg (by rw [hb]; decide), hq]

theorem runStepWord_ok {w : StepWord} {i : Instr} (h : decodeStep w = .ok i) (s : State) :
    runStepWord w s = exec i s := by
  unfold runStepWord
  rw [h]

theorem runStepWord_reserved {w : StepWord} {r : DecodeReject} (h : decodeStep w = .error r) (s : State) :
    runStepWord w s = .refused (.reservedStepWord w) := by
  unfold runStepWord
  rw [h]

theorem programMove_of_word {words : List StepWord} {w : StepWord} {s : State} (h : s.pcNat < s.nw)
    (hw : words[s.pcNat]? = some w) : programMove words s = runStepWord w s := by
  unfold programMove
  rw [if_pos h, hw]

theorem sequencerMove_of_lt {s : State} (h : s.pcNat < s.nw) :
    sequencerMove s = runStepWord (stepSel s.nk s.pcNat) s := if_pos h

theorem sequencerMove_of_done {s : State} (h : s.nw ≤ s.pcNat) : sequencerMove s = .next s.finishMiss :=
  if_neg (by omega)

theorem serveRequest_command {s : State} (h : s.level = .command) (q : Request) :
    serveRequest q s = exec (decodeRequest q) s := by
  unfold serveRequest
  rw [h]

/-- Acceptance and lines 1 to 3 of `GetRoundKey`, at the step level (R241, R245). -/
theorem serveRequest_step {s : State} (h : s.level = .step) (hr : s.ready = true) (q : Request) :
    serveRequest q s =
      .next (s.accept (q.extractLsb' 264 8) ((List.range 32).map (requestSlot q)) (q.extractLsb' 0 8)).frontEnd := by
  unfold serveRequest
  rw [h]
  exact if_pos hr

/-! ## Runs -/

theorem coreRun_succ {M : Host.Core} {n : Nat} {s t : M.State} (h : M.step s = .next t) :
    M.run (n + 1) s = M.run n t := by
  simp only [Host.Core.run, h]

theorem coreRun_add {M : Host.Core} {m n : Nat} {s t : M.State} (h : M.run m s = .next t) :
    M.run (m + n) s = M.run n t := by
  induction m generalizing s with
  | zero =>
    rw [Nat.zero_add]
    injection h with h
    rw [h]
  | succ m ih =>
    rw [Nat.add_right_comm]
    cases hs : M.step s with
    | next u =>
      rw [coreRun_succ hs] at h ⊢
      exact ih h
    | fault f => simp only [Host.Core.run, hs, reduceCtorEq] at h
    | refused r => simp only [Host.Core.run, hs, reduceCtorEq] at h

@[simp] theorem run_zero (s : State) : Host.Core.run Sys2Proof.core 0 s = .next s := rfl

/-- A run takes one step and goes on. -/
theorem run_succ {n : Nat} {s t : State} (h : step s = .next t) :
    Host.Core.run Sys2Proof.core (n + 1) s = Host.Core.run Sys2Proof.core n t := coreRun_succ h

/-- A run that goes on is a run of its first part and a run of the rest. -/
theorem run_add {m n : Nat} {s t : State} (h : Host.Core.run Sys2Proof.core m s = .next t) :
    Host.Core.run Sys2Proof.core (m + n) s = Host.Core.run Sys2Proof.core n t := coreRun_add h

end Sys2Proof.Machine
end

