-- ==== Sys2Proof/Laws/PerInstr.lean ====
section
/-! SUPPORT. Statements made per instruction (LAWS.json names the family OpcodeRow). -/

namespace Sys2Proof.Laws

/-- The opcode table's row of an instruction (R93, R99): `GETRK` travels on the request channel; the word of a step
instruction is one the row's mask and pattern match, and the row reads the instruction back from it. -/
def OpcodeRow.Statement (i : Instr) : Prop :=
  i.wf = true →
    match encode i with
    | .request q => ∃ keylen slots index, i = .getrk keylen slots index ∧ q = encodeRequest keylen slots index
    | .step w => ∃ r ∈ stepRows, r.matchesWord w = true ∧ r.instr w.rci = i

theorem OpcodeRow.getrk (keylen : Byte) (slots : List Byte) (index : Byte) :
    OpcodeRow.Statement (.getrk keylen slots index) := fun _ => ⟨keylen, slots, index, rfl, rfl⟩

theorem OpcodeRow.kld : OpcodeRow.Statement .kld :=
  fun _ => ⟨⟨0xFF#8, 0x80#8, fun _ => .kld⟩, List.mem_of_getElem? (i := 0) rfl, by decide, rfl⟩

theorem OpcodeRow.xp : OpcodeRow.Statement .xp :=
  fun _ => ⟨⟨0xFF#8, 0x00#8, fun _ => .xp⟩, List.mem_of_getElem? (i := 1) rfl, by decide, rfl⟩

theorem OpcodeRow.xs : OpcodeRow.Statement .xs :=
  fun _ => ⟨⟨0xFF#8, 0x20#8, fun _ => .xs⟩, List.mem_of_getElem? (i := 2) rfl, by decide, rfl⟩

theorem OpcodeRow.xg (j : Nat) : OpcodeRow.Statement (.xg j) := by
  intro h
  have hj : j < 16 := by simpa [Instr.wf] using h
  refine ⟨⟨0xF0#8, 0x70#8, fun j => .xg j⟩, List.mem_of_getElem? (i := 3) rfl, ?_, ?_⟩
  · have : ∀ j, j < 16 → ((0x70#8 + BitVec.ofNat 8 j) &&& 0xF0#8 == 0x70#8) = true := by decide
    exact this j hj
  · have : ∀ j, j < 16 → StepWord.rci (0x70#8 + BitVec.ofNat 8 j) = j := by decide
    exact congrArg Instr.xg (this j hj)

end Sys2Proof.Laws
end

