-- ==== Sys2Proof/Laws/Run.lean ====
section
/-! SUPPORT. An expansion, step by step (spec/45_expand_steps.md R200 to R202): what the selector's word decodes to, what
holds after `i` steps, and from it everything the atomic command `GETRK` can do. -/

namespace Sys2Proof.Machine

theorem decodeStep_of_toOption (w : StepWord) (i : Instr) (h : (decodeStep w).toOption = some i) :
    decodeStep w = .ok i := by
  cases h' : decodeStep w with
  | ok a => rw [h'] at h; simp [Except.toOption] at h; rw [h]
  | error e => rw [h'] at h; simp [Except.toOption] at h

/-- The instruction of the word the selector emits at `pc = i` (R125). -/
def stepInstr (nk i : Nat) : Instr :=
  if i < nk then .kld
  else if i % nk = 0 then .xg (i / nk - 1)
  else if nk = 8 ∧ i % nk = 4 then .xs
  else .xp

/-- The selector's word at a position of a step program decodes to that instruction (R128). -/
theorem decodeStep_stepSel (n i : Nat) (hi : i < (classify n).nw) :
    decodeStep (stepSel (classify n).nk i) = .ok (stepInstr (classify n).nk i) := by
  apply decodeStep_of_toOption
  rcases classify_cases n with ⟨-, h⟩ | ⟨-, h⟩ | ⟨-, h⟩ | ⟨-, -, -, h⟩ <;> rw [h] at hi ⊢ <;> simp only at hi ⊢
  · revert i; decide
  · revert i; decide
  · revert i; decide
  · omega

/-- No step word stands for `GETRK`. -/
theorem stepInstr_ne_getrk (nk i : Nat) (a b c) : stepInstr nk i ≠ .getrk a b c := by
  unfold stepInstr; split; simp; split; simp; split <;> simp

/-- What holds of `t` after `i` steps of an expansion of schedule `sched` from the state `b` it was started in: the
words built so far stand in W with their marks (R222, R30), and RCREG has been doubled once per `XG` (R177). -/
structure Progress (sched : List Word) (b : State) (i : Nat) (t : State) : Prop where
  frame : OnlyDatapathChanged b t
  pc : t.pcNat = i
  marks : ∀ k, k < 60 → t.wv[k]? = some (decide (k < i))
  built : ∀ k, k < i → t.w[k]? = sched[k]?
  rest : ∀ k, i ≤ k → t.w[k]? = b.w[k]?
  generator : b.rcImpl = .xtimeRegister → t.rcreg = xtime^[xgStepsBefore b.nk i] 0x01#8
  noGen : b.rcImpl = .table → t.rcreg = b.rcreg

/-- A step instruction changes no selector output and no key byte (R25, R61). -/
theorem onlyDatapathChanged_selectors {s t : State} (h : OnlyDatapathChanged s t) :
    t.nk = s.nk ∧ t.nw = s.nw ∧ t.var = s.var ∧ t.keyValue = s.keyValue ∧ (∀ a, t.readKey a = s.readKey a) ∧
      t.rcImpl = s.rcImpl := by
  rw [OnlyDatapathChanged] at h
  rw [h]; exact ⟨rfl, rfl, rfl, rfl, fun _ => rfl, rfl⟩

theorem onlyDatapathChanged_trans {s t u : State} (h1 : OnlyDatapathChanged s t) (h2 : OnlyDatapathChanged t u) :
    OnlyDatapathChanged s u := by
  rw [OnlyDatapathChanged] at *
  rw [h2, h1]

/-- The start of an expansion (R200). -/
theorem progress_start (s : State) (sched : List Word) : Progress sched s 0 s.startExpansion where
  frame := rfl
  pc := rfl
  marks := fun k hk => by simp [hk]
  built := fun k hk => by omega
  rest := fun k _ => rfl
  generator := fun h => by simp [h, xgStepsBefore]
  noGen := fun h => by simp [h]

/-- The key bytes a `KLD` reads are those of the key value (R63, R210). -/
theorem readKey_eq_keyValue (s : State) (hv : s.var ≠ 3#2) (i : Nat) (hi : i < s.nk) :
    s.readKey (4 * i) = word32 (s.keyValue.getD (4 * i) 0) (s.keyValue.getD (4 * i + 1) 0)
      (s.keyValue.getD (4 * i + 2) 0) (s.keyValue.getD (4 * i + 3) 0) := by
  have hlen := keyValue_length hv
  have hb : 4 * s.nk ≤ s.keylen.toNat ∧ s.keylen.toNat ≤ 32 := by
    simp only [State.nk, State.variant]
    rcases classify_cases s.keylen.toNat with ⟨h'', h'⟩ | ⟨h'', h'⟩ | ⟨h'', h'⟩ | ⟨-, -, -, h'⟩ <;>
      simp only [State.var, State.variant] at hv <;> rw [h'] at hv ⊢ <;> simp at hv ⊢ <;> omega
  have : ∀ k, k < 4 * s.nk → s.keyByte k = s.keyValue.getD k 0 := by
    intro k hk
    rw [keyByte_eq_getD, State.keyValue]
    simp only [List.getD_eq_getElem?_getD]
    rw [List.getElem?_take_of_lt (by omega)]
    rfl
  unfold State.readKey
  rw [this _ (by omega), this _ (by omega), this _ (by omega), this _ (by omega)]

/-- The count of `XG` steps grows at the positions that are multiples of NK. -/
theorem xgStepsBefore_succ {nk i : Nat} (h4 : 4 ≤ nk) (hi : nk ≤ i) :
    xgStepsBefore nk (i + 1) = if i % nk = 0 then xgStepsBefore nk i + 1 else xgStepsBefore nk i := by
  unfold xgStepsBefore
  rw [Nat.add_sub_cancel]
  have := @Nat.succ_div (i-1) nk
  rw [show i - 1 + 1 = i by omega] at this
  rw [this]
  simp only [Nat.dvd_iff_mod_eq_zero]
  split <;> rfl

/-- One step of an expansion: it completes, and the progress is by one word (R201, R222). -/
theorem progress_step {sched : List Word} {b t : State} {i : Nat} (hv : b.var ≠ 3#2)
    (hx : expand b.sboxRom b.keyValue = .ok sched) (hi : i < b.nw) (hp : Progress sched b i t) :
    ∃ t', execStepWord (stepSel t.nk t.pcNat) t = .next t' ∧ exec (stepInstr b.nk i) t = .next t' ∧
      Progress sched b (i+1) t' := by
  obtain ⟨hnk, hnw, hvar, hkv, hrk, hrc⟩ := onlyDatapathChanged_selectors hp.frame
  have hc := classify_keyValue hv
  have hspec := expand_spec (by rw [hc]; exact hv) hx
  rw [hc] at hspec
  obtain ⟨hlen, hkey, hnext⟩ := hspec
  change sched.length = b.nw at hlen
  change ∀ i, i < b.nk → _ at hkey
  change (∀ i, b.nk ≤ i → i < b.nw → ∃ v, nextWord b.sboxRom b.nk i sched = .ok v ∧ sched[i]? = some v) at hnext
  have hsb : t.sboxRom = b.sboxRom := by have := hp.frame; rw [OnlyDatapathChanged] at this; rw [this]
  have hnk4 : 4 ≤ b.nk := four_le_nk hv
  have hnw60 := nw_le b
  have hd : decodeStep (stepSel t.nk t.pcNat) = .ok (stepInstr b.nk i) := by
    rw [hp.pc, hnk]; exact decodeStep_stepSel b.keylen.toNat i hi
  rw [execStepWord_eq_exec hd (stepInstr_ne_getrk _ _)]
  suffices h : ∃ t', exec (stepInstr b.nk i) t = .next t' ∧ Progress sched b (i+1) t' by
    obtain ⟨t', h1, h2⟩ := h; exact ⟨t', h1, h1, h2⟩
  by_cases hik : i < b.nk
  · -- kld
    have hsel : stepInstr b.nk i = .kld := by simp [stepInstr, hik]
    rw [hsel]
    rcases loadKeyWord_cases t with ⟨-, h⟩ | ⟨h, -⟩
    swap
    · rw [hnk, hp.pc] at h; omega
    refine ⟨_, h, ?_⟩
    have hw := writeW_wrote t (k := t.pcNat) (by rw [hp.pc]; omega) (t.readKey (4 * t.pcNat))
    rw [hp.pc] at hw ⊢
    obtain ⟨hw1, hw2, hw3⟩ := hw
    have hadv : (t.writeW i (t.readKey (4 * i))).advance.pcNat = i + 1 := by
      rw [advance_pcNat (by simp [hp.pc]; omega)]; simp [hp.pc]
    refine ⟨onlyDatapathChanged_trans hp.frame rfl, hadv, fun k hk => ?_, fun k hk => ?_,
      fun k hk => ?_, fun h => ?_, fun h => ?_⟩
    · rw [advance_wv]
      by_cases hki : k = i
      · subst hki; rw [hw2]; simp
      · rw [(hw3 k hki).2, hp.marks k hk]; congr 1; simp; omega
    · rw [advance_w]
      by_cases hki : k = i
      · subst hki; rw [hw1, hkey k hik, hrk, readKey_eq_keyValue b hv k hik]
      · rw [(hw3 k hki).1, hp.built k (by omega)]
    · rw [advance_w, (hw3 k (by omega)).1, hp.rest k (by omega)]
    · simp only [advance_rcreg, writeW_rcreg]
      rw [hp.generator h]
      unfold xgStepsBefore
      rw [Nat.div_eq_of_lt (by omega), Nat.div_eq_of_lt (by omega)]
    · simp only [advance_rcreg, writeW_rcreg]; exact hp.noGen h
  · -- chain
    have hprev : ∃ p, t.readW (i-1) = some p ∧ sched[i-1]? = some p := by
      have hlt : i - 1 < sched.length := by omega
      refine ⟨sched[i-1], readW_eq_some.2 ⟨?_, ?_⟩, List.getElem?_eq_getElem hlt⟩
      · rw [hp.marks _ (by omega)]; simp; omega
      · rw [hp.built _ (by omega), List.getElem?_eq_getElem]
    have hback : ∃ p, t.readW (i-b.nk) = some p ∧ sched[i-b.nk]? = some p := by
      have hlt : i - b.nk < sched.length := by omega
      refine ⟨sched[i-b.nk], readW_eq_some.2 ⟨?_, ?_⟩, List.getElem?_eq_getElem hlt⟩
      · rw [hp.marks _ (by omega)]; simp; omega
      · rw [hp.built _ (by omega), List.getElem?_eq_getElem]
    obtain ⟨p, hp1, hp2⟩ := hprev
    obtain ⟨q, hq1, hq2⟩ := hback
    obtain ⟨v, hv1, hv2⟩ := hnext i (by omega) hi
    have hleg : t.nk ≤ t.pcNat ∧ t.pcNat < t.nw := by rw [hnk, hnw, hp.pc]; omega
    have key : ∀ (rot sub rce : Bool) (j : Nat) (t3 : Word),
        (∀ s, exec (stepInstr b.nk i) s = chainStep rot sub rce j s) →
        rconStage rce j (subStage b.sboxRom sub (rotStage rot p)) = .ok t3 → v = xorW q t3 → (rce = true ↔ i % b.nk = 0) →
        ∃ t', exec (stepInstr b.nk i) t = .next t' ∧ Progress sched b (i+1) t' := by
      intro rot sub rce j t3 he ht hvx hrce
      rw [he, chainStep_done hleg (by rw [hp.pc]; exact hp1) (by rw [hsb]; exact ht)
        (by rw [hp.pc, hnk]; exact hq1), hp.pc, ← hvx]
      refine ⟨_, rfl, ?_⟩
      have hw := writeW_wrote (t.setTemp t3) (k := i) (by omega) v
      obtain ⟨hw1, hw2, hw3⟩ := hw
      have hadv : ((t.setTemp t3).writeW i v).advance.pcNat = i + 1 := by
        rw [advance_pcNat (by simp [hp.pc]; omega)]; simp [hp.pc]
      have hrc' : ∀ u : State, (if rce then u.stepRcreg else u).w = u.w ∧ (if rce then u.stepRcreg else u).wv = u.wv ∧
          (if rce then u.stepRcreg else u).pcNat = u.pcNat := by
        intro u; cases rce <;> exact ⟨rfl, rfl, rfl⟩
      obtain ⟨e1, e2, e3⟩ := hrc' ((t.setTemp t3).writeW i v).advance
      rw [advance_w] at e1
      rw [advance_wv] at e2
      refine ⟨onlyDatapathChanged_trans hp.frame (by cases rce <;> rfl), by rw [e3, hadv],
        fun k hk => ?_, fun k hk => ?_, fun k hk => ?_, fun h => ?_, fun h => ?_⟩
      · rw [e2]
        by_cases hki : k = i
        · subst hki; rw [hw2]; simp
        · rw [(hw3 k hki).2, setTemp_wv, hp.marks k hk]; congr 1; simp; omega
      · rw [e1]
        by_cases hki : k = i
        · subst hki; rw [hw1, hv2]
        · rw [(hw3 k hki).1, setTemp_w, hp.built k (by omega)]
      · rw [e1, (hw3 k (by omega)).1, setTemp_w, hp.rest k (by omega)]
      · rw [xgStepsBefore_succ hnk4 (by omega)]
        have hg := hp.generator h
        cases rce with
        | true =>
          rw [if_pos (hrce.1 rfl), if_pos rfl]
          simp [hrc, h, hg, Function.iterate_succ_apply']
        | false =>
          have hn : ¬ i % b.nk = 0 := fun hh => by simpa using hrce.2 hh
          rw [if_neg hn]
          simpa using hg
      · have hg := hp.noGen h
        cases rce with
        | true => simp [hrc, h, hg]
        | false => simpa using hg
    unfold nextWord at hv1
    simp only [List.getD_eq_getElem?_getD, hp2, hq2, Option.getD_some] at hv1
    unfold transformTemp at hv1
    by_cases h0 : i % b.nk = 0
    · rw [if_pos h0] at hv1
      cases hr : rcon (i / b.nk - 1) with
      | error e => rw [hr] at hv1; cases hv1
      | ok c =>
        rw [hr] at hv1
        simp only [Except.ok.injEq] at hv1
        refine key true true true (i/b.nk - 1) (xorW (subWord b.sboxRom (rotWord p)) c) ?_ ?_ hv1.symm (by simp [h0])
        · intro s; simp [stepInstr, hik, h0, exec, execXg]
        · simp [rconStage, hr]
    · rw [if_neg h0] at hv1
      by_cases h1 : b.nk = 8 ∧ i % b.nk = 4
      · rw [if_pos h1] at hv1
        simp only [Except.ok.injEq] at hv1
        refine key false true false 0 (subWord b.sboxRom p) ?_ rfl hv1.symm (by simp [h0])
        intro s; simp only [stepInstr, if_neg hik, if_neg h0, if_pos h1]; rfl
      · rw [if_neg h1] at hv1
        simp only [Except.ok.injEq] at hv1
        refine key false false false 0 p ?_ rfl hv1.symm (by simp [h0])
        intro s; simp only [stepInstr, if_neg hik, if_neg h0, if_neg h1]; rfl
/-- The step cycle from any position runs to NW (R201, R202). -/
theorem runExpansion_spec {sched : List Word} {b : State} (hv : b.var ≠ 3#2) (hx : expand b.sboxRom b.keyValue = .ok sched)
    (hbusy : b.busy = true) :
    ∀ (n i : Nat) (t : State), Progress sched b i t → i + n = b.nw →
      ∃ t', runExpansion n t = .next t' ∧ Progress sched b b.nw t' := by
  intro n
  induction n with
  | zero => intro i t hp h; exact ⟨t, rfl, by simpa [← h] using hp⟩
  | succ n ih =>
    intro i t hp h
    obtain ⟨t', h1, -, h2⟩ := progress_step hv hx (by omega) hp
    obtain ⟨t'', h3, h4⟩ := ih (i+1) t' h2 (by omega)
    refine ⟨t'', ?_, h4⟩
    unfold runExpansion
    have hb : t.busy = true := by have := hp.frame; rw [OnlyDatapathChanged] at this; rw [this]; exact hbusy
    obtain ⟨hnk, hnw, -⟩ := onlyDatapathChanged_selectors hp.frame
    rw [if_pos ⟨hb, by rw [hp.pc, hnw]; omega⟩, h1]
    exact h3

theorem progress_busy {sched : List Word} {b t : State} {i : Nat} (hp : Progress sched b i t) : t.busy = b.busy := by
  have := hp.frame; rw [OnlyDatapathChanged] at this; rw [this]

/-- When the sequencer has stopped, `W[0..NW-1]` is the schedule (R202, R222). -/
theorem builtSchedule_of_progress {sched : List Word} {b t : State} (hv : b.var ≠ 3#2)
    (hx : expand b.sboxRom b.keyValue = .ok sched) (hp : Progress sched b b.nw t) :
    t.builtSchedule = sched := by
  obtain ⟨hnk, hnw, -⟩ := onlyDatapathChanged_selectors hp.frame
  have hc := classify_keyValue hv
  have hlen := (expand_spec (by rw [hc]; exact hv) hx).1
  rw [hc] at hlen
  change sched.length = b.nw at hlen
  have h60 := nw_le b
  apply List.ext_getElem?
  intro k
  unfold State.builtSchedule
  rw [hnw]
  by_cases hk : k < b.nw
  · rw [List.getElem?_take_of_lt hk, ← hp.built k hk]; simp
  · rw [List.getElem?_eq_none (by simp; omega), List.getElem?_eq_none (by omega)]

/-- Everything the index check and the answer can do (R250, R251). -/
theorem answer_cases (s : State) (sched : List Word) :
    (∃ w, s.index.toNat < s.nw ∧ sched[s.index.toNat]? = some w ∧ s.answer sched = s.respond (.ok w)) ∨
    (¬ (s.index.toNat < s.nw ∧ s.index.toNat < sched.length) ∧ s.answer sched = s.raise .indexOutOfRange) := by
  unfold State.answer
  by_cases h : s.index.toNat < s.nw
  · rw [if_pos h]
    by_cases h2 : s.index.toNat < sched.length
    · rw [List.getElem?_eq_getElem h2]
      exact .inl ⟨_, h, rfl, rfl⟩
    · rw [List.getElem?_eq_none (by omega)]
      exact .inr ⟨by omega, rfl⟩
  · rw [if_neg h]; exact .inr ⟨by omega, rfl⟩

theorem answer_responds (s : State) (sched : List Word) : ∃ r, s.answer sched = s.respond r := by
  rcases answer_cases s sched with ⟨w, -, -, h⟩ | ⟨-, h⟩
  · exact ⟨_, h⟩
  · exact ⟨_, h⟩

/-- Everything a ready KSE can do with a `GETRK` (R245): refuse the length, answer from the cache, or expand, store and
answer. -/
theorem execGetrk_cases (s : State) (keylen index : Byte) (slots : List Byte) (hl : slots.length = 32)
    (hr : s.ready = true) :
    let a := s.accept keylen slots index
    (a.var = 3#2 ∧ exec (.getrk keylen slots index) s = .next (a.raise .invalidKeyLength)) ∨
    (a.var ≠ 3#2 ∧ ∃ sched, s.cache.lookup a.var (requestKey keylen slots) = some sched ∧
      exec (.getrk keylen slots index) s = .next (a.answer sched)) ∨
    (a.var ≠ 3#2 ∧ s.cache.lookup a.var (requestKey keylen slots) = none ∧
      ∃ sched t, expand s.sboxRom (requestKey keylen slots) = .ok sched ∧ Progress sched a a.nw t ∧
        runExpansion a.nw a.startExpansion = .next t ∧
        exec (.getrk keylen slots index) s = .next ((t.store sched).answer sched)) := by
  intro a
  have hkv : a.keyValue = requestKey keylen slots := accept_keyValue s keylen index hl
  by_cases hv : a.var = 3#2
  · refine .inl ⟨hv, ?_⟩
    simp only [exec, execGetrk, hr, if_true]
    have : a.frontEnd = a.raise .invalidKeyLength := by unfold State.frontEnd; rw [if_pos hv]
    rw [show (s.accept keylen slots index).frontEnd = a.raise .invalidKeyLength from this]
    simp
  · cases hlk : s.cache.lookup a.var (requestKey keylen slots) with
    | some sched =>
      refine .inr (.inl ⟨hv, sched, rfl, ?_⟩)
      simp only [exec, execGetrk, hr, if_true]
      have : a.frontEnd = a.answer sched := by
        unfold State.frontEnd; rw [if_neg hv]; rw [hkv]
        rw [show a.cache = s.cache from rfl, hlk]
      rw [show (s.accept keylen slots index).frontEnd = a.answer sched from this]
      obtain ⟨r, hr⟩ := answer_responds a sched
      rw [hr]; simp
    | none =>
      obtain ⟨sched, hx⟩ := expand_ok s.sboxRom (requestKey keylen slots)
      have hx' : expand a.sboxRom a.keyValue = .ok sched := by rw [hkv]; exact hx
      obtain ⟨t, h1, h2⟩ := runExpansion_spec hv hx' rfl a.nw 0 _ (progress_start a sched) (by omega)
      refine .inr (.inr ⟨hv, rfl, sched, t, hx, h2, h1, ?_⟩)
      simp only [exec, execGetrk, hr, if_true]
      have : a.frontEnd = a.startExpansion := by
        unfold State.frontEnd; rw [if_neg hv]; rw [hkv]
        rw [show a.cache = s.cache from rfl, hlk]
      rw [show (s.accept keylen slots index).frontEnd = a.startExpansion from this]
      have hb : t.busy = true := by rw [progress_busy h2]; rfl
      simp only [startExpansion_busy, show a.busy = true from rfl, if_true, serveMiss, startExpansion_nw, h1, hb]
      rw [State.finishMiss, builtSchedule_of_progress hv hx' h2]

/-- The answer is a response KSE can give: never InvalidWordLength (R276). -/
theorem answer_response (s : State) (sched : List Word) :
    ∃ r, s.answer sched = s.respond r ∧ r ≠ .err .invalidWordLength := by
  rcases answer_cases s sched with ⟨w, -, -, h⟩ | ⟨-, h⟩
  · exact ⟨_, h, by simp⟩
  · exact ⟨_, h, by simp⟩

/-- A store of the schedule of its key keeps the cached schedules right (R40, R249). -/
theorem store_cacheRight {s : State} {sched : List Word} (hv : s.var ≠ 3#2)
    (hx : expand s.sboxRom s.keyValue = .ok sched) (h : CacheRight s.sboxRom s.cache) :
    CacheRight s.sboxRom (s.store sched).cache := by
  intro v e he
  rw [store_cache] at he
  by_cases hvv : v = s.var
  · subst hvv
    rw [bank_setBank_same hv] at he
    rcases mem_bankStore he with rfl | he
    · exact hx
    · exact h _ _ he
  · rw [bank_setBank_other hvv] at he
    exact h _ _ he

/-- A store keeps CACHE_CAP (R41, R249). -/
theorem store_withinCap {s : State} {sched : List Word} (hv : s.var ≠ 3#2) (h : WithinCap s.cacheCap s.cache) :
    WithinCap s.cacheCap (s.store sched).cache := by
  intro n hn v
  rw [store_cache]
  by_cases hvv : v = s.var
  · subst hvv
    rw [bank_setBank_same hv, hn]
    exact length_bankStore_le (h n hn _)
  · rw [bank_setBank_other hvv]
    exact h n hn _

/-- The front end answers at once, or starts an expansion of an uncached key (R245 to R248). -/
theorem frontEnd_cases (s : State) :
    (∃ r, r ≠ .err .invalidWordLength ∧ s.frontEnd = s.respond r) ∨
      (s.var ≠ 3#2 ∧ s.cache.lookup s.var s.keyValue = none ∧ s.frontEnd = s.startExpansion) := by
  unfold State.frontEnd
  split
  · exact .inl ⟨_, by simp, rfl⟩
  split
  · obtain ⟨r, h1, h2⟩ := answer_response s (by assumption); exact .inl ⟨r, h2, h1⟩
  · exact .inr ⟨by assumption, by assumption, rfl⟩

/-- The start of an expansion (R200), as the invariant sees it. -/
theorem startExpansion_underWay {s : State} (h1 : s.program = none) (h2 : s.resp.valid = false) (h3 : s.var ≠ 3#2)
    (h4 : s.cache.lookup s.var s.keyValue = none) :
    ExpansionUnderWay s.startExpansion where
  noProgram := h1
  noResponse := h2
  legalLength := h3
  missed := h4
  pcWithin := Nat.zero_le _
  marks := fun k hk => by simp [hk]
  built := fun _ _ k hk => absurd hk (Nat.not_lt_zero _)
  generator := fun h => by simp at h; simp [h, xgStepsBefore]

/-- An expansion under way is a progress from where it stands. -/
theorem progress_of_underWay {s : State} (h : ExpansionUnderWay s) {sched : List Word}
    (hx : expand s.sboxRom s.keyValue = .ok sched) : Progress sched s s.pcNat s where
  frame := rfl
  pc := rfl
  marks := h.marks
  built := h.built sched hx
  rest := fun _ _ => rfl
  generator := h.generator
  noGen := fun _ => rfl

/-- A progress from an expansion under way is one under way. -/
theorem underWay_of_progress {s t : State} (hu : ExpansionUnderWay s) {sched : List Word} {i : Nat}
    (hx : expand s.sboxRom s.keyValue = .ok sched) (hi : i ≤ s.nw) (hp : Progress sched s i t) : ExpansionUnderWay t := by
  have ho := hp.frame
  obtain ⟨hnk, hnw, hvar, hkv, -, hrc⟩ := onlyDatapathChanged_selectors ho
  rw [OnlyDatapathChanged] at ho
  have e1 : t.program = s.program := by rw [ho]
  have e2 : t.resp = s.resp := by rw [ho]
  have e3 : t.cache = s.cache := by rw [ho]
  have e4 : t.sboxRom = s.sboxRom := by rw [ho]
  refine ⟨by rw [e1]; exact hu.noProgram, by rw [e2]; exact hu.noResponse,
    by rw [hvar]; exact hu.legalLength, by rw [e3, hvar, hkv]; exact hu.missed, by rw [hp.pc, hnw]; exact hi,
    fun k hk => by rw [hp.marks k hk, hp.pc], ?_, ?_⟩
  · intro sched' hx' k hk
    rw [hkv, e4, hx] at hx'; injection hx' with hx'; subst hx'
    exact hp.built k (by rw [← hp.pc]; exact hk)
  · intro h; rw [hnk, hp.pc]; exact hp.generator (by rw [← hrc]; exact h)

/-- Everything a move of the sequencer does while an expansion is under way: one more word, or the end of the command
(R201, R202, R245). -/
theorem sequencerMove_cases {s : State} (hu : ExpansionUnderWay s) :
    ∃ sched, expand s.sboxRom s.keyValue = .ok sched ∧
     ((s.pcNat < s.nw ∧ ∃ t, sequencerMove s = .next t ∧ Progress sched s (s.pcNat + 1) t) ∨
     (s.pcNat = s.nw ∧ sequencerMove s = .next ((s.store sched).answer sched))) := by
  obtain ⟨sched, hx⟩ := expand_ok s.sboxRom s.keyValue
  refine ⟨sched, hx, ?_⟩
  have hp := progress_of_underWay hu hx
  rcases Nat.lt_or_ge s.pcNat s.nw with hlt | hge
  · obtain ⟨t, h1, h2, h3⟩ := progress_step hu.legalLength hx hlt hp
    refine .inl ⟨hlt, t, ?_, h3⟩
    rw [sequencerMove_of_lt hlt]
    exact (runStepWord_ok (decodeStep_stepSel s.keylen.toNat _ hlt) s).trans h2
  · have he : s.pcNat = s.nw := by have := hu.pcWithin; omega
    refine .inr ⟨he, ?_⟩
    rw [sequencerMove_of_done (by omega), State.finishMiss]
    rw [he] at hp
    rw [builtSchedule_of_progress hu.legalLength hx hp]

end Sys2Proof.Machine
end

