-- ==== Sys2Proof/Tests/Slice0.lean ====
section
/-! SUPPORT. Our own tests: the smoke tests of well-formedness and decoding, the vectors of spec/95_test_vectors.md (the
source of every expected value: T<n> and P<n>), and a witness for the hypotheses of every statement that has any. -/

namespace Sys2Proof.Tests

open Sys2Proof.Machine

/-! ## Helpers -/

/-- The state an outcome goes on in. -/
def nextOf : Host.Outcome State Fault Refusal → Option State
  | .next t => some t
  | _ => none

/-- `k128`, `k192`, `k256` of spec/95: byte `n` has value `n`. -/
def k128 : List Byte := (List.range 16).map (BitVec.ofNat 8)
def k192 : List Byte := (List.range 24).map (BitVec.ofNat 8)
def k256 : List Byte := (List.range 32).map (BitVec.ofNat 8)

/-- The 32 slots of a request for a key (R93). -/
def pad (key : List Byte) : List Byte := key ++ List.replicate (32 - key.length) 0x00#8

/-- A latched key at position `pc`, with some words written. -/
def latchedAt (key : List Byte) (pc : Nat) (words : List (Nat × Word)) : State :=
  words.foldl (fun s kv => s.writeW kv.1 kv.2)
    { State.reset.accept (BitVec.ofNat 8 key.length) (pad key) 0#8 with busy := false, pc := BitVec.ofNat 6 pc }

/-- What a step leaves in `W[k]`, its mark, TEMP and the pc. -/
def wrote (k : Nat) (o : Host.Outcome State Fault Refusal) : Option (Option Word × Option Bool × Word × Nat) :=
  (nextOf o).map fun t => (t.w[k]?, t.wv[k]?, t.temp, t.pcNat)

/-- What one `GETRK` after reset leaves in RESP. -/
def respOf (key : List Byte) (index : Byte) : Option Resp :=
  (nextOf (exec (.getrk (BitVec.ofNat 8 key.length) (pad key) index) State.reset)).map (·.resp)

/-- The schedule of a key over the table SBOXROM holds at reset, as plain data. -/
def scheduleOf (key : List Byte) : List Word :=
  match expand standardSbox key with
  | .ok sched => sched
  | .error _ => []

/-! ## Well-formedness: each check refuses an ill-formed term -/

theorem test_wf_getrk_slots_short : (Instr.getrk 16#8 (List.replicate 31 0#8) 0#8).wf = false := by decide
theorem test_wf_getrk_slots_long : (Instr.getrk 16#8 (List.replicate 33 0#8) 0#8).wf = false := by decide
theorem test_wf_xg_index : (Instr.xg 16).wf = false := by decide
theorem test_wf_accepts : (Instr.getrk 255#8 (List.replicate 32 0#8) 255#8).wf = true ∧ (Instr.xg 15).wf = true ∧
    Instr.kld.wf = true ∧ Instr.xp.wf = true ∧ Instr.xs.wf = true := by decide

/-! ## Decoding words written out from R91, R99 and R101 -/

/-- Full request of T40, index 4. -/
theorem test_decode_getrk :
    decode (.request 0x10000102030405060708090a0b0c0d0e0f0000000000000000000000000000000004#272) =
      .ok (.getrk 0x10#8 (pad k128) 0x04#8) := by decide +kernel
/-- Full request of T42, index 59: all 32 slots are key. -/
theorem test_decode_getrk_256 :
    decode (.request 0x20000102030405060708090a0b0c0d0e0f101112131415161718191a1b1c1d1e1f3b#272) =
      .ok (.getrk 0x20#8 k256 0x3b#8) := by decide +kernel
theorem test_decode_kld : decode (.step 0b10000000#8) = .ok .kld := by decide
theorem test_decode_xp : decode (.step 0b00000000#8) = .ok .xp := by decide
theorem test_decode_xs : decode (.step 0b00100000#8) = .ok .xs := by decide
theorem test_decode_xg : decode (.step 0b01111001#8) = .ok (.xg 9) ∧ decode (.step 0b01111111#8) = .ok (.xg 15) := by
  decide
/-- The refused samples of T14. -/
theorem test_decode_reserved :
    ([0x01, 0x0f, 0x10, 0x21, 0x30, 0x40, 0x50, 0x60, 0x6f, 0x81, 0xa0, 0xf0, 0xff] : List (BitVec 8)).all
      (fun w => (decodeStep w).toOption.isNone) = true := by decide
theorem test_encode_getrk : encode (.getrk 0x10#8 (pad k128) 0x04#8) =
    .request 0x10000102030405060708090a0b0c0d0e0f0000000000000000000000000000000004#272 := by decide +kernel
theorem test_decodeTableWord : decodeTableWord 8 0x79 = some (.xg 9) ∧ decodeTableWord 8 0x40 = none ∧
    decodeTableWord 8 0x180 = none ∧ decodeTableWord 16 0 = none := by decide

/-! ## The units -/

/-- T15. -/
theorem test_rotWord : rotWord 0x01020304#32 = 0x02030401#32 ∧ rotWord 0xff000000#32 = 0x000000ff#32 := by decide
/-- T16. -/
theorem test_subWord : subWord standardSbox 0x03020100#32 = 0x7b777c63#32 ∧
    subWord standardSbox 0xcf4f3c09#32 = 0x8a84eb01#32 := by decide +kernel
/-- T17: the checks on the whole table. -/
theorem test_sbox_rows : sboxRows.map (fun r => r.foldl (· ^^^ ·) 0#8) =
    [0xa9, 0x16, 0xc5, 0x4e, 0x5e, 0xee, 0x4c, 0xc0, 0xd6, 0x36, 0x93, 0x57, 0xa8, 0x50, 0xbd, 0x69] := by decide +kernel
theorem test_sbox_sum :
    ((List.range 256).map fun a => (a + 1) * (sbox standardSbox (BitVec.ofNat 8 a)).toNat).sum = 4132988 := by decide +kernel
/-- T18. -/
theorem test_xtime : xtime 0x7f#8 = 0xfe#8 ∧ xtime 0x80#8 = 0x1b#8 ∧ xtime 0x1b#8 = 0x36#8 ∧ xtime 0xff#8 = 0xe5#8 := by
  decide
/-- T22. -/
theorem test_xorW : xorW 0xd7ab76fe#32 0x01000000#32 = 0xd6ab76fe#32 ∧ xorW 0xa5a5a5a5#32 0x5a5a5a5a#32 = 0xffffffff#32 := by
  decide
/-- T12. -/
theorem test_stepSel : stepSel 4 40 = 0x79#8 ∧ stepSel 6 10 = 0x00#8 ∧ stepSel 8 12 = 0x20#8 ∧ stepSel 8 4 = 0x80#8 ∧
    stepSel 8 56 = 0x76#8 := by decide
/-- The program bytes of P1. -/
theorem test_expandProgram : (expandProgram 4).take 9 = [0x80, 0x80, 0x80, 0x80, 0x70, 0x00, 0x00, 0x00, 0x71] ∧
    (expandProgram 8).length = 60 := by decide

/-! ## The step instructions -/

/-- T23 (d): the first key byte of the group is the high byte. -/
theorem test_kld : wrote 5 (exec .kld (latchedAt (List.replicate 20 0#8 ++ [0xde, 0xad, 0xbe, 0xef]) 5 [])) =
    some (some 0xdeadbeef#32, some true, 0#32, 6) := by decide +kernel
/-- T23 (e). -/
theorem test_kld_refused : exec .kld (latchedAt k128 4 []) = .refused (.illegalPosition 4) := rfl
/-- T25 (a). -/
theorem test_xp : wrote 5 (exec .xp (latchedAt k128 5 [(4, 0xd6aa74fd#32), (1, 0x04050607#32)])) =
    some (some 0xd2af72fa#32, some true, 0xd6aa74fd#32, 6) := by decide +kernel
/-- T25 (e). -/
theorem test_xp_refused : exec .xp (latchedAt k128 2 []) = .refused (.illegalPosition 2) := rfl
/-- T24. -/
theorem test_xs : wrote 12 (exec .xs (latchedAt k256 12 [(11, 0xa572c09c#32), (4, 0x10111213#32)])) =
    some (some 0x1651a8cd#32, some true, 0x0640bade#32, 13) := by decide +kernel
/-- T26, the row of NK = 6, pc = 48; and T27: an index out of range writes no word. -/
theorem test_xg : wrote 48 (exec (.xg 7) (latchedAt k192 48 [(47, 0xd8aeda32#32), (42, 0xc0c02952#32)])) =
      some (some 0xa4970a33#32, some true, 0x64572361#32, 49) ∧
    (nextOf (exec (.xg 10) (latchedAt k128 4 [(3, 0x0c0d0e0f#32), (0, 0x00010203#32)]))).map
      (fun t => (t.resp, t.wv[4]?, t.pcNat)) = some (⟨true, 2#2, 0#32⟩, some false, 4) := by decide +kernel
/-- T28. -/
theorem test_xg_unwritten : exec (.xg 0) (latchedAt k128 4 [(0, 0#32), (1, 0#32), (2, 0#32)]) =
    .fault (.unwrittenRead 3 4) := rfl

/-! ## GETRK -/

/-- T40, index 43; T41, index 52; T42, index 12; T43, a bad length and a bad index (the length wins). -/
theorem test_getrk : respOf k128 43#8 = some ⟨true, 0#2, 0x4d2b30c5#32⟩ ∧ respOf k192 52#8 = some ⟨true, 2#2, 0#32⟩ ∧
    respOf k256 12#8 = some ⟨true, 0#2, 0x1651a8cd#32⟩ ∧
    respOf ((List.range 15).map (BitVec.ofNat 8)) 200#8 = some ⟨true, 1#2, 0#32⟩ := by decide +kernel
/-- P1: RCREG ends as 6c, bank 0 holds the key. -/
theorem test_getrk_miss_state :
    (nextOf (exec (.getrk 16#8 (pad k128) 255#8) State.reset)).map
      (fun t => (t.rcreg, t.cache.bank128.map (·.key), t.pcNat)) = some (0x6c#8, [k128], 44) := by decide +kernel
/-- The HOST's fetch: a request and a step word each run as the very next step. -/
theorem test_withFetchWord_request :
    (nextOf (step (State.reset.withFetchWord 272
      0x10000000000000000000000000000000000000000000000000000000000000000004))).map (·.resp) =
      some ⟨true, 0#2, 0x62636363#32⟩ := by decide +kernel
theorem test_withFetchWord_xp :
    (nextOf (step (State.reset.withFetchWord 8 0x00))).map (fun t => (t.pcNat, t.wv[4]?)) = some (5, some true) := by
  decide +kernel

/-! ## Witnesses: concrete states and operands that meet the hypotheses of the statements -/

/-- An expansion of `k128` that has just been started, for a request of index 4. -/
def started : State := (State.reset.accept 16#8 (pad k128) 4#8).startExpansion

/-- The same expansion after its four key loads. -/
def loaded : State :=
  { started with
    pc := 4#6
    w := ((((started.w.setIfInBounds 0 0x00010203#32).setIfInBounds 1 0x04050607#32).setIfInBounds 2
      0x08090a0b#32).setIfInBounds 3 0x0c0d0e0f#32)
    wv := Vector.ofFn fun k : Fin 60 => decide (k.val < 4) }

/-- An idle KSE whose cache holds `k128`. -/
def cached : State := { State.reset with cache := ⟨[⟨k128, scheduleOf k128⟩], [], []⟩ }

theorem expand_scheduleOf (key : List Byte) : expand standardSbox key = .ok (scheduleOf key) := by
  obtain ⟨sched, h⟩ := expand_ok standardSbox key
  unfold scheduleOf
  rw [h]

theorem started_underWay : ExpansionUnderWay started := by
  apply startExpansion_underWay rfl rfl
  · decide
  · rfl

theorem started_inv : Inv started where
  pcRange := Nat.zero_le _
  cacheForm := rfl
  cacheRight := fun var e he => by rcases var_cases var with rfl | rfl | rfl | rfl <;> cases he
  cacheCap := fun n hn => by cases hn
  respFormed := fun h => by cases h
  running := fun _ => started_underWay

theorem loaded_underWay : ExpansionUnderWay loaded where
  noProgram := rfl
  noResponse := rfl
  legalLength := by decide
  missed := rfl
  pcWithin := by decide
  marks := by decide +kernel
  built := by
    intro sched hs i hi
    have hk : ((expand loaded.sboxRom loaded.keyValue).toOption.map fun s => s.take 4) =
        some [0x00010203#32, 0x04050607#32, 0x08090a0b#32, 0x0c0d0e0f#32] := by decide +kernel
    rw [hs] at hk
    have hk : sched.take 4 = [0x00010203#32, 0x04050607#32, 0x08090a0b#32, 0x0c0d0e0f#32] := by
      simpa [Except.toOption] using hk
    have hi : i < 4 := hi
    have hw : ∀ i, i < 4 → loaded.w[i]? = [0x00010203#32, 0x04050607#32, 0x08090a0b#32, 0x0c0d0e0f#32][i]? := by
      decide +kernel
    rw [hw i hi, ← hk, List.getElem?_take_of_lt hi]
  generator := fun _ => rfl

theorem loaded_inv : Inv loaded where
  pcRange := by decide
  cacheForm := rfl
  cacheRight := fun var e he => by rcases var_cases var with rfl | rfl | rfl | rfl <;> cases he
  cacheCap := fun n hn => by cases hn
  respFormed := fun h => by cases h
  running := fun _ => loaded_underWay

theorem cached_right : CacheRight standardSbox cached.cache := by
  intro var e he
  rcases var_cases var with rfl | rfl | rfl | rfl
  · obtain rfl := List.mem_singleton.1 he
    exact expand_scheduleOf k128
  all_goals cases he

theorem cached_inv (moves : List HostMove) : Inv { cached with host := moves } where
  pcRange := Nat.zero_le _
  cacheForm := rfl
  cacheRight := cached_right
  cacheCap := fun n hn => by cases hn
  respFormed := fun h => by cases h
  running := fun h => by cases h

theorem witness_ResetAbandonsTheCommand : ∃ (s : State) (moves : List HostMove), s.host = .reset :: moves ∧ s.busy = true :=
  ⟨{ started with host := [.reset, .take] }, [.take], rfl, rfl⟩

theorem witness_TakingTheResponseFreesKse : ∃ (s : State) (moves : List HostMove),
    s.host = .take :: moves ∧ s.resp.valid = true ∧ s.busy = false :=
  ⟨{ State.reset with host := [.take], resp := ⟨true, 2#2, 0#32⟩ }, [], rfl, rfl, rfl⟩

theorem witness_UnacceptedRequestWaits : started.ready = false ∧
    ({ State.reset with resp := ⟨true, 1#2, 0#32⟩ } : State).ready = false := by decide

theorem witness_UntakenResponseBlocksAcceptance : ∃ s : State, s.host = [] ∧ s.program = none ∧ s.busy = false ∧
    s.resp.valid = true ∧ s.port ≠ [] :=
  ⟨{ State.reset with resp := ⟨true, 0#2, 5#32⟩, port := [0#272] }, rfl, rfl, rfl, rfl, by simp⟩

theorem witness_IdleKseWaits : cached.host = [] ∧ cached.program = none ∧ cached.busy = false ∧ cached.port = [] :=
  ⟨rfl, rfl, rfl, rfl⟩

theorem witness_LatchHoldsWhileBusy : ∃ t, started.busy = true ∧ (∀ moves, started.host ≠ .reset :: moves) ∧
    step started = .next t := ⟨_, rfl, fun _ => by simp [started, State.reset], rfl⟩

theorem witness_DecodeOfEncodeIsTheInstruction :
    (Instr.getrk 255#8 (List.replicate 32 255#8) 255#8).wf = true ∧ (Instr.xg 0).wf = true ∧ (Instr.xg 15).wf = true := by
  decide

theorem witness_EncodeOfDecodeIsTheWord : decode (.step 0x7F#8) = .ok (.xg 15) ∧
    decode (.request 0#272) = .ok (decodeRequest 0#272) := ⟨by decide, rfl⟩

theorem witness_EveryRequestIsGetrk_slots : (0 < 32) ∧ (31 < 32) := by decide

theorem witness_ReservedStepWordRefused : ∃ (s : State) (words : List StepWord) (w : StepWord) (r : DecodeReject),
    s.host = [] ∧ s.program = some words ∧ s.pcNat < s.nw ∧ words[s.pcNat]? = some w ∧ decodeStep w = .error r :=
  ⟨{ started with busy := false, program := some [0x60#8] }, [0x60#8], 0x60#8, .unitEnables, rfl, rfl, by decide, rfl,
    by decide⟩

theorem witness_ResponseWordsReadBack : decodeResponse 0x200000000#34 = some (.err .indexOutOfRange) ∧
    decodeResponse 0x0d6aa74fd#34 = some (.ok 0xd6aa74fd#32) ∧
    decodeResponse 0x300000000#34 = some (.err .invalidWordLength) := by decide +kernel

/-- A permutation that is not the table of R156: every byte to itself. -/
def idTable : SboxTable := Vector.ofFn fun i : Fin 256 => BitVec.ofNat 8 i.val

theorem sbox_idTable : sbox idTable = id := by
  funext a
  simp [sbox, idTable]

theorem witness_SubWordLaws : Function.Bijective (sbox idTable) ∧ sbox standardSbox 0x00#8 = 0x63#8 :=
  ⟨by rw [sbox_idTable]; exact Function.bijective_id, by decide +kernel⟩

/-- A step that runs on another table than the one SBOXROM holds at reset. -/
theorem witness_ParametersNeverChange : ∃ t, step { State.reset with sboxRom := idTable, host := [.reset] } = .next t ∧
    t.sboxRom = idTable := ⟨_, rfl, rfl⟩

theorem witness_RoundConstantsAreDoublings : (0 < 10 ∧ 9 < 10) ∧ (10 ≤ 10 ∧ 10 ≤ 15) := by decide

theorem witness_ClassificationTable : 15 ≠ 16 ∧ 15 ≠ 24 ∧ 15 ≠ 32 ∧ 128 ≠ 16 ∧ 128 ≠ 24 ∧ 128 ≠ 32 := by decide

theorem witness_SelectorEmitsLegalSteps : ((classify 16).var ≠ 3#2 ∧ 43 < (classify 16).nw) ∧
    ((classify 24).var ≠ 3#2 ∧ 51 < (classify 24).nw) ∧ ((classify 32).var ≠ 3#2 ∧ 59 < (classify 32).nw) := by decide

theorem witness_KldLoadsTheKeyWord : (latchedAt k128 3 []).pcNat < (latchedAt k128 3 []).nk ∧
    (latchedAt k256 7 []).pcNat < (latchedAt k256 7 []).nk ∧ (latchedAt k128 4 []).nk ≤ (latchedAt k128 4 []).pcNat := by
  decide

/-- A legal position of `XP`, `XS` and `XG` with both sources written: the last of an AES-128 expansion. -/
def atEnd : State := latchedAt k128 43 [(42, 1#32), (39, 2#32)]

theorem atEnd_legal : ChainLegal atEnd := ⟨by decide, by decide⟩

theorem witness_XpCombinesTheSources : ChainLegal atEnd ∧ SourcesWritten atEnd ∧
    atEnd.w[atEnd.pcNat - atEnd.nk]? = some 2#32 ∧ atEnd.w[atEnd.pcNat - 1]? = some 1#32 ∧
    (latchedAt k128 3 []).pcNat < (latchedAt k128 3 []).nk :=
  ⟨atEnd_legal, ⟨by decide +kernel, by decide +kernel⟩, by decide +kernel, by decide +kernel, by decide⟩

/-- `XS` for every NK (R212): a witness at NK = 6, where the selector never emits it. -/
theorem witness_XsSubstitutes : ∃ s : State, s.nk = 6 ∧ ChainLegal s ∧ SourcesWritten s ∧
    s.w[s.pcNat - s.nk]? = some 2#32 ∧ s.w[s.pcNat - 1]? = some 1#32 :=
  ⟨latchedAt k192 6 [(5, 1#32), (0, 2#32)], by decide, ⟨by decide, by decide⟩, ⟨by decide +kernel, by decide +kernel⟩,
    by decide +kernel, by decide +kernel⟩

theorem witness_XgStartsTheRound : ChainLegal atEnd ∧ SourcesWritten atEnd ∧
    atEnd.w[atEnd.pcNat - atEnd.nk]? = some 2#32 ∧ atEnd.w[atEnd.pcNat - 1]? = some 1#32 ∧
    rcRom[0]? = some 0x01#8 ∧ rcRom[9]? = some 0x36#8 ∧ atEnd.rcImpl = .xtimeRegister ∧
    ({ atEnd with rcImpl := .table } : State).rcImpl = .table ∧ 15 < 16 ∧ 10 ≤ 10 :=
  ⟨atEnd_legal, ⟨by decide +kernel, by decide +kernel⟩, by decide +kernel, by decide +kernel, rfl, rfl, rfl, rfl,
    by decide, by decide⟩

theorem witness_XgConstantOutOfRangeRaises : ChainLegal atEnd ∧ atEnd.wv[atEnd.pcNat - 1]? = some true ∧
    atEnd.w[atEnd.pcNat - 1]? = some 1#32 ∧ 10 ≤ 10 ∧ 10 ≤ 15 :=
  ⟨atEnd_legal, by decide +kernel, by decide +kernel, by decide, by decide⟩

theorem witness_IllegalPositionRefused : (latchedAt k128 4 []).nk ≤ (latchedAt k128 4 []).pcNat ∧ ¬ChainLegal (latchedAt k128 3 []) ∧
    ¬ChainLegal (latchedAt k128 44 []) := ⟨by decide, fun h => absurd h.1 (by decide), fun h => absurd h.2 (by decide)⟩

theorem witness_UnwrittenSourceFaults : ChainLegal (latchedAt k128 4 []) ∧ (latchedAt k128 4 []).wv[3]? = some false ∧
    ChainLegal (latchedAt k128 4 [(3, 0#32)]) ∧ (latchedAt k128 4 [(3, 0#32)]).wv[3]? = some true ∧
    (latchedAt k128 4 [(3, 0#32)]).wv[0]? = some false ∧ 9 < 10 :=
  ⟨⟨by decide, by decide⟩, by decide +kernel, ⟨by decide, by decide⟩, by decide +kernel, by decide +kernel, by decide⟩

theorem witness_DatapathFormulaIsTheInstruction : decodeStep 0x80#8 = .ok .kld ∧ decodeStep 0x7F#8 = .ok (.xg 15) := by
  decide

theorem witness_StepInstructionsStayInTheDatapath : (∀ a b c, Instr.xp ≠ .getrk a b c) ∧
    ∃ t, exec .xp atEnd = .next t := ⟨fun _ _ _ => by simp, _, rfl⟩

theorem witness_ExpandLengthAndPrefix : (classify k128.length).var ≠ 3#2 ∧ (classify k192.length).var ≠ 3#2 ∧
    (classify k256.length).var ≠ 3#2 ∧ 7 < (classify k256.length).nk ∧ SettledEntries standardSbox :=
  ⟨by decide, by decide, by decide, by decide, by unfold SettledEntries; decide +kernel⟩

/-- A witness for each of the three branches: index 16 (`XG`), 12 (`XS`), 59 (`XP`) of an AES-256 schedule. -/
theorem witness_ExpandObeysTheRecurrence : (classify k256.length).var ≠ 3#2 ∧ 8 = (classify k256.length).nk ∧
    expand standardSbox k256 = .ok (scheduleOf k256) ∧ 59 < (classify k256.length).nw ∧
    (∀ i ∈ [16, 12, 59], 8 ≤ i ∧ ((scheduleOf k256)[i - 8]?).isSome = true ∧ ((scheduleOf k256)[i - 1]?).isSome = true) ∧
    16 % 8 = 0 ∧ 12 % 8 = 4 ∧ 59 % 8 ≠ 0 ∧ 59 % 8 ≠ 4 :=
  ⟨by decide, by decide, expand_scheduleOf k256, by decide, by decide +kernel, by decide, by decide, by decide, by decide⟩

/-- An index of each form of look-up: 8 and 56 (`XG`), 12 (`XS`), and 59 (`XP`), which looks nothing up. -/
theorem witness_ScheduleIsFixedByTheEntriesLookedUp : (classify k256.length).var ≠ 3#2 ∧
    expand standardSbox k256 = .ok (scheduleOf k256) ∧
    (∀ i ∈ [8, 56, 12, 59], (classify k256.length).nk ≤ i ∧ i < (classify k256.length).nw ∧
      ((scheduleOf k256)[i - 1]?).isSome = true) ∧
    lookedUp 8 8 0x1c1d1e1f#32 = [0x1c#8, 0x1d#8, 0x1e#8, 0x1f#8] ∧
    lookedUp 8 12 0xa572c09c#32 = [0xa5#8, 0x72#8, 0xc0#8, 0x9c#8] ∧ lookedUp 8 59 0#32 = [] :=
  ⟨by decide, expand_scheduleOf k256, by decide +kernel, by decide, by decide, by decide⟩

theorem witness_StepCycleBuildsTheSchedule : (pad k192).length = 32 ∧ (classify (24#8 : Byte).toNat).var ≠ 3#2 ∧
    (51 < (classify (24#8 : Byte).toNat).nw) := by decide

theorem witness_GetrkRespondsByTheRequestAlone : (pad k128).length = 32 ∧ cached.ready = true ∧
    CacheRight cached.sboxRom cached.cache :=
  ⟨by decide, rfl, cached_right⟩

theorem witness_GetrkFrame : (pad k128).length = 32 ∧ State.reset.ready = true ∧
    (∃ t, exec (.getrk 16#8 (pad k128) 44#8) State.reset = .next t) ∧ 1#2 ≠ (classify (16#8 : Byte).toNat).var := by
  refine ⟨by decide, rfl, ?_, by decide⟩
  rcases execGetrk_cases State.reset 16#8 44#8 (pad k128) (by decide) rfl with
    ⟨-, h⟩ | ⟨-, sched, -, h⟩ | ⟨-, -, sched, t, -, -, -, h⟩
  · exact ⟨_, h⟩
  · exact ⟨_, h⟩
  · exact ⟨_, h⟩

theorem witness_BadKeyLengthIsRefusedFirst : (List.replicate 32 0#8).length = 32 ∧ cached.ready = true ∧
    ∀ k ∈ ([0#8, 15#8, 17#8, 33#8, 255#8] : List Byte), k ≠ 16#8 ∧ k ≠ 24#8 ∧ k ≠ 32#8 := by decide +kernel

/-- A hit at the last index in range, 43, and at the first one out of range, 44. -/
theorem witness_HitAnswersFromTheCache : (pad k128).length = 32 ∧ cached.ready = true ∧
    (classify (16#8 : Byte).toNat).var ≠ 3#2 ∧
    cached.cache.lookup (classify (16#8 : Byte).toNat).var (requestKey 16#8 (pad k128)) = some (scheduleOf k128) ∧
    (43#8 : Byte).toNat < (classify (16#8 : Byte).toNat).nw ∧ (scheduleOf k128)[43]? = some 0x4d2b30c5#32 ∧
    (classify (16#8 : Byte).toNat).nw ≤ (44#8 : Byte).toNat :=
  ⟨by decide, rfl, by decide, rfl, by decide, by decide +kernel, by decide⟩

/-- A miss: another key of the same bank, for CACHE_CAP unbounded, 0, 1 (the bank is full) and 2 (it has room). -/
theorem witness_MissStoresTheWholeSchedule : (List.replicate 32 0#8).length = 32 ∧
    ∀ cap ∈ [none, some 0, some 1, some 2], ({ cached with cacheCap := cap } : State).ready = true ∧
      (classify (16#8 : Byte).toNat).var ≠ 3#2 ∧
      ({ cached with cacheCap := cap } : State).cache.lookup (classify (16#8 : Byte).toNat).var
        (requestKey 16#8 (List.replicate 32 0#8)) = none ∧
      (cached.cache.bank (classify (16#8 : Byte).toNat).var).length = 1 ∧ List.replicate 16 1#8 ≠
        requestKey 16#8 (List.replicate 32 0#8) := by
  refine ⟨by decide, fun cap _ => ⟨rfl, by decide, rfl, rfl, by decide⟩⟩

theorem witness_MissStartsAnExpansion : ∃ (s : State) (q : Request) (rest : List Request),
    decodeRequest q = .getrk 16#8 (List.replicate 32 0#8) 4#8 ∧ s.host = [] ∧ s.program = none ∧ s.ready = true ∧
    s.level = .step ∧ s.port = q :: rest ∧ (classify (16#8 : Byte).toNat).var ≠ 3#2 ∧
    s.cache.lookup (classify (16#8 : Byte).toNat).var (requestKey 16#8 (List.replicate 32 0#8)) = none ∧
    s.rcImpl = .xtimeRegister :=
  ⟨{ cached with level := .step, port := [0x10000000000000000000000000000000000000000000000000000000000000000004#272] },
    0x10000000000000000000000000000000000000000000000000000000000000000004#272, [], by decide +kernel, rfl, rfl, rfl,
    rfl, rfl, by decide, rfl, rfl⟩

/-- A miss on a 16-byte key: `W[44..59]` are the words past NW; with the generator register and without it. -/
theorem witness_MissLeavesTheScheduleInW : (pad k128).length = 32 ∧ (classify (16#8 : Byte).toNat).var ≠ 3#2 ∧
    (classify (16#8 : Byte).toNat).nw ≤ 44 ∧ 59 < 60 ∧ 43 < (classify (16#8 : Byte).toNat).nw ∧
    expand standardSbox (requestKey 16#8 (pad k128)) = .ok (scheduleOf (requestKey 16#8 (pad k128))) ∧
    ∀ rc : RcImpl, ({ State.reset with rcImpl := rc } : State).ready = true ∧
      State.reset.cache.lookup (classify (16#8 : Byte).toNat).var (requestKey 16#8 (pad k128)) = none ∧
      ∃ t, exec (.getrk 16#8 (pad k128) 0#8) { State.reset with rcImpl := rc } = .next t := by
  refine ⟨by decide, by decide, by decide, by decide, by decide, expand_scheduleOf _, fun rc => ⟨rfl, rfl, ?_⟩⟩
  rcases execGetrk_cases { State.reset with rcImpl := rc } 16#8 0#8 (pad k128) (by decide) rfl with
    ⟨-, h⟩ | ⟨-, sched, -, h⟩ | ⟨-, -, sched, t, -, -, -, h⟩
  · exact ⟨_, h⟩
  · exact ⟨_, h⟩
  · exact ⟨_, h⟩

/-- A full bank, one with room, and CACHE_CAP = 0. -/
theorem witness_StoreKeepsTheCapacity : ([⟨k128, []⟩] : List Entry).length ≤ 1 ∧ ([⟨k128, []⟩] : List Entry).length < 2 ∧
    ([] : List Entry).length ≤ 0 ∧ ∀ x ∈ ([⟨k128, []⟩] : List Entry), x.key ≠ List.replicate 16 0#8 := by
  refine ⟨by decide, by decide, by decide, fun x hx => ?_⟩
  obtain rfl := List.mem_singleton.1 hx
  decide

theorem witness_StepRunsTheDecodedInstruction :
    (∃ (s : State) (q : Request) (rest : List Request), s.host = [] ∧ s.program = none ∧ s.busy = false ∧
      s.level = .command ∧ s.port = q :: rest) ∧
    (∃ (s : State) (words : List StepWord) (w : StepWord) (i : Instr), s.host = [] ∧ s.program = some words ∧
      s.pcNat < s.nw ∧ words[s.pcNat]? = some w ∧ decode (.step w) = .ok i) ∧
    ∃ i : Instr, started.host = [] ∧ started.program = none ∧ started.busy = true ∧ started.pcNat < started.nw ∧
      decode (.step (stepSel started.nk started.pcNat)) = .ok i :=
  ⟨⟨{ State.reset with port := [0#272] }, 0#272, [], rfl, rfl, rfl, rfl, rfl⟩,
    ⟨{ started with busy := false, program := some [0x80#8] }, [0x80#8], 0x80#8, .kld, rfl, rfl, by decide, rfl,
      by decide⟩,
    ⟨.kld, rfl, rfl, rfl, by decide, by decide⟩⟩

theorem witness_EveryStepKeepsTheInvariant : ∃ t, Inv loaded ∧ loaded.busy = true ∧ step loaded = .next t :=
  ⟨_, loaded_inv, rfl, rfl⟩

theorem witness_HardwareNeverStops : Inv loaded ∧ loaded.program = none ∧ Inv cached :=
  ⟨loaded_inv, rfl, cached_inv []⟩

theorem witness_ResponsesStayWellFormed : ∃ t, RespFormed ⟨true, 2#2, 0#32⟩ ∧
    step { State.reset with resp := ⟨true, 2#2, 0#32⟩ } = .next t ∧ t.resp.valid = true :=
  ⟨_, fun _ => ⟨by decide, fun _ => rfl⟩, rfl, rfl⟩

theorem witness_GeneratorAgreesWithTheTable : Inv loaded ∧ loaded.busy = true ∧ loaded.rcImpl = .xtimeRegister ∧
    loaded.pcNat < loaded.nw ∧ decodeStep (stepSel loaded.nk loaded.pcNat) = .ok (.xg 0) :=
  ⟨loaded_inv, rfl, rfl, by decide, by decide⟩

theorem witness_TheTwoLevelsAgree : ∃ (s : State) (q : Request) (rest : List Request), s.host = [] ∧ s.program = none ∧
    s.ready = true ∧ s.level = .step ∧ s.port = q :: rest :=
  ⟨{ cached with level := .step, port := [0#272] }, 0#272, [], rfl, rfl, rfl, rfl, rfl⟩

theorem witness_OneResponsePerRequestInOrder : ∃ (s : State) (q1 q2 : Request), Inv s ∧ s.program = none ∧
    s.ready = true ∧ s.port = [] ∧ s.level = .command ∧ s.host = [.offer q1, .take, .offer q2, .take] :=
  ⟨{ cached with host := [.offer 0#272, .take, .offer 1#272, .take] }, 0#272, 1#272, cached_inv _, rfl, rfl, rfl, rfl, rfl⟩

theorem witness_ExpandProgramBuildsTheSchedule : (classify k192.length).var ≠ 3#2 ∧ cached.host = [] ∧
    expand cached.sboxRom k192 = .ok (scheduleOf k192) := ⟨by decide, rfl, expand_scheduleOf k192⟩

end Sys2Proof.Tests
end

/-! # The two levels of service (spec/00_scope.md R8; spec/45_expand_steps.md R222; spec/46_getroundkey.md R256)

Served at the step level, a request takes one step of acceptance and lines 1 to 3, on a miss NW steps of the sequencer,
and one step that stores and answers. Each step is one the atomic command makes inside its own transition. -/

namespace Sys2Proof.Machine

/-! ## The first step: acceptance and lines 1 to 3 -/

/-- The atomic command of a ready KSE: the front end, then the miss path unless the front end has answered (R245). -/
theorem exec_getrk_of_ready {s : State} (hr : s.ready = true) (keylen index : Byte) (slots : List Byte) :
    exec (.getrk keylen slots index) s =
      if (s.accept keylen slots index).frontEnd.busy then serveMiss (s.accept keylen slots index).frontEnd
      else .next (s.accept keylen slots index).frontEnd := by
  simp only [exec, execGetrk, hr, if_true]

/-- A step that meets a request at the step level makes the front end of the atomic command (R241, R245, log entry 3). -/
theorem step_of_request_at_step_level {s : State} {q : Request} {rest : List Request} (hhost : s.host = [])
    (hprog : s.program = none) (hr : s.ready = true) (hlevel : s.level = .step) (hport : s.port = q :: rest) :
    step s = .next (({ s with port := rest } : State).accept (q.extractLsb' 264 8) ((List.range 32).map (requestSlot q))
      (q.extractLsb' 0 8)).frontEnd := by
  have hidle : s.busy = false := by
    simp only [State.ready, Bool.and_eq_true, Bool.not_eq_true'] at hr
    obtain ⟨hidle, -⟩ := hr
    exact hidle
  rw [step_of_no_host hhost, kseMove_of_request hprog hidle hport]
  exact serveRequest_step (s := { s with port := rest }) hlevel hr q

/-! ## The sequencer's steps -/

section Expansion

variable {sched : List Word} {b t : State} {i : Nat}
  (hhost : b.host = []) (hprog : b.program = none) (hbusy : b.busy = true)
  (hlegal : b.var ≠ 3#2) (hsched : expand b.sboxRom b.keyValue = .ok sched)

include hhost hprog hbusy

/-- While an expansion is in progress and HOST has no move, the sequencer has the step. -/
theorem step_of_progress (hp : Progress sched b i t) : step t = sequencerMove t := by
  have ht := hp.frame
  rw [OnlyDatapathChanged] at ht
  have hhost' : t.host = [] := by rw [ht]; exact hhost
  have hprog' : t.program = none := by rw [ht]; exact hprog
  rw [step_of_no_host hhost', kseMove_of_busy hprog' ((progress_busy hp).trans hbusy)]

include hlegal hsched

/-- `n` steps of the machine are `n` rounds of the step cycle inside the atomic command (R201). -/
theorem run_eq_runExpansion : ∀ (n i : Nat) (t : State), Progress sched b i t → i + n = b.nw →
    Host.Core.run Sys2Proof.core n t = runExpansion n t := by
  intro n
  induction n with
  | zero => intro i t _ _; rfl
  | succ n ih =>
    intro i t hp hn
    have hi : i < b.nw := by omega
    obtain ⟨hnk, hnw, -⟩ := onlyDatapathChanged_selectors hp.frame
    have hlt : t.pcNat < t.nw := by rw [hp.pc, hnw]; exact hi
    obtain ⟨t', hword, hexec, hp'⟩ := progress_step hlegal hsched hi hp
    have hstep : step t = .next t' := by
      rw [step_of_progress hhost hprog hbusy hp, sequencerMove_of_lt hlt, hp.pc, hnk]
      exact (runStepWord_ok (decodeStep_stepSel b.keylen.toNat i hi) t).trans hexec
    rw [run_succ hstep, runExpansion, if_pos ⟨(progress_busy hp).trans hbusy, hlt⟩, hword]
    exact ih (i + 1) t' hp' (by omega)

end Expansion

/-- From the start of an expansion, NW steps and the one that ends the command lead where the atomic miss path does
(R202, R222, R248). -/
theorem serveMiss_eq_run {b : State} (hhost : b.host = []) (hprog : b.program = none) (hbusy : b.busy = true)
    (hlegal : b.var ≠ 3#2) :
    ∃ t, serveMiss b.startExpansion = .next t ∧
      Host.Core.run Sys2Proof.core (b.nw + 1) b.startExpansion = .next t := by
  obtain ⟨sched, hsched⟩ := expand_ok b.sboxRom b.keyValue
  have hstart := progress_start b sched
  obtain ⟨u, hcycle, hp⟩ := runExpansion_spec hlegal hsched hbusy b.nw 0 _ hstart (Nat.zero_add _)
  obtain ⟨-, hnw, -⟩ := onlyDatapathChanged_selectors hp.frame
  have hrun : Host.Core.run Sys2Proof.core b.nw b.startExpansion = .next u :=
    (run_eq_runExpansion hhost hprog hbusy hlegal hsched b.nw 0 _ hstart (Nat.zero_add _)).trans hcycle
  have hlast : step u = .next u.finishMiss := by
    rw [step_of_progress hhost hprog hbusy hp]
    exact sequencerMove_of_done (by rw [hp.pc, hnw])
  refine ⟨u.finishMiss, ?_, ?_⟩
  · simp only [serveMiss, startExpansion_nw, hcycle, progress_busy hp, hbusy, if_true]
  · rw [run_add hrun, run_succ hlast, run_zero]

/-- Settles O53: the first step makes the front end of the atomic command; if that has answered, one step is enough, and
if it has started an expansion, NW + 1 more steps make the miss path. -/
theorem theTwoLevelsAgree : Obligations.TheTwoLevelsAgree := by
  unfold Obligations.TheTwoLevelsAgree
  intro s q rest hhost hprog hr hlevel hport
  have hfirst := step_of_request_at_step_level hhost hprog hr hlevel hport
  have hatomic := exec_getrk_of_ready (s := { s with port := rest }) hr (q.extractLsb' 264 8) (q.extractLsb' 0 8)
    ((List.range 32).map (requestSlot q))
  generalize ha : ({ s with port := rest } : State).accept _ _ _ = a at hfirst hatomic
  rcases frontEnd_cases a with ⟨r, -, hanswer⟩ | ⟨hlegal, -, hmiss⟩
  · rw [hanswer] at hfirst hatomic
    exact ⟨1, a.respond r, by omega, hatomic, by rw [run_succ hfirst, run_zero]⟩
  · have hbusy : a.busy = true := by rw [← ha]; rfl
    rw [hmiss] at hfirst hatomic
    rw [startExpansion_busy, if_pos hbusy] at hatomic
    obtain ⟨t, hserve, hrun⟩ := serveMiss_eq_run (b := a) (by rw [← ha]; exact hhost) (by rw [← ha]; exact hprog) hbusy
      hlegal
    have hnw := nw_le a
    exact ⟨a.nw + 1 + 1, t, by omega, hatomic.trans hserve, (run_succ hfirst).trans hrun⟩

end Sys2Proof.Machine

/-! # What every step keeps (spec/10_state.md R22, R26 to R43; spec/20_memory.md R78)

Each agent's move is inverted once, whatever state it starts in: HOST's (`step_cases`), a step control word
(`StepEnded`), a request (`Served`), a loaded program and the sequencer. The latch, the parameters and the invariant are
then followed through these cases. -/

namespace Sys2Proof.Machine

/-! ## Three parts of the state -/

/-- The key latch: KEYLEN, KEY[0..31] and INDEX (R22). -/
def State.latch (s : State) : Byte × Vector Byte 32 × Byte := (s.keylen, s.key, s.index)

/-- The parameters and the level, which no step writes (R43, R78; log entries 3, 5 and 7). -/
def State.parameters (s : State) : SboxTable × Option Nat × RcImpl × Level :=
  (s.sboxRom, s.cacheCap, s.rcImpl, s.level)

theorem latch_eq_iff {s t : State} :
    t.latch = s.latch ↔ t.keylen = s.keylen ∧ t.key = s.key ∧ t.index = s.index := by
  simp [State.latch]

theorem parameters_eq_iff {s t : State} :
    t.parameters = s.parameters ↔
      t.sboxRom = s.sboxRom ∧ t.cacheCap = s.cacheCap ∧ t.rcImpl = s.rcImpl ∧ t.level = s.level := by
  simp [State.parameters]

theorem parameters_of_surroundings {s t : State} (h : SurroundingsUnchanged s t) : t.parameters = s.parameters := by
  obtain ⟨-, -, -, hlevel, -, hcap, hrc, hrom⟩ := h
  exact parameters_eq_iff.2 ⟨hrom, hcap, hrc, hlevel⟩

/-- The part of the invariant that speaks neither of BUSY nor of RESP: the step counter and the cache. -/
structure BaseInv (s : State) : Prop where
  pcRange : s.pcNat ≤ 60
  cacheForm : Memory.wf s.cache = true
  cacheRight : CacheRight s.sboxRom s.cache
  cacheCap : WithinCap s.cacheCap s.cache

theorem Inv.base {s : State} (h : Inv s) : BaseInv s := ⟨h.pcRange, h.cacheForm, h.cacheRight, h.cacheCap⟩

/-- A step instruction that completes leaves the surroundings, the latch, the cache, RESP and BUSY (R61). -/
theorem onlyDatapathChanged_frame {s t : State} (h : OnlyDatapathChanged s t) :
    SurroundingsUnchanged s t ∧ t.latch = s.latch ∧ t.cache = s.cache ∧ t.resp = s.resp ∧ t.busy = s.busy := by
  rw [OnlyDatapathChanged] at h
  rw [h]
  exact ⟨⟨rfl, rfl, rfl, rfl, rfl, rfl, rfl, rfl⟩, rfl, rfl, rfl, rfl⟩

/-! ## What each agent's move can do -/

/-- Everything one step of the machine can be: a move of KSE, or HOST's offer, taking or reset (R243, R253, R310). -/
theorem step_cases (s : State) :
    (∃ moves, step s = kseMove { s with host := moves }) ∨
    (∃ moves q, step s = .next { s with host := moves, port := s.port ++ [q] }) ∨
    (∃ moves, s.resp.valid = true ∧ step s = .next { s.takeResponse with host := moves }) ∨
    (∃ moves, s.host = .reset :: moves ∧ step s = .next { s.resetInput with host := moves }) := by
  cases hhost : s.host with
  | nil => exact .inl ⟨s.host, step_of_no_host hhost⟩
  | cons move moves =>
    cases move with
    | offer q => exact .inr (.inl ⟨moves, q, step_of_offer hhost⟩)
    | take =>
      cases hv : s.resp.valid with
      | false => exact .inl ⟨s.host, step_of_take_waiting hhost hv⟩
      | true => exact .inr (.inr (.inl ⟨moves, rfl, step_of_take hhost hv⟩))
    | reset => exact .inr (.inr (.inr ⟨moves, rfl, step_of_reset hhost⟩))
    | tick => exact .inl ⟨moves, step_of_tick hhost⟩

theorem ready_iff {s : State} : s.ready = true ↔ s.busy = false ∧ s.resp.valid = false := by
  simp [State.ready]

/-- Everything one move of KSE can be: of a loaded program, of the sequencer, none, or the service of a request. -/
theorem kseMove_cases (s : State) :
    (∃ words, s.program = some words ∧ kseMove s = programMove words s) ∨
    (s.program = none ∧ s.busy = true ∧ kseMove s = sequencerMove s) ∨
    (s.program = none ∧ s.busy = false ∧ kseMove s = .next s) ∨
    (s.program = none ∧ s.busy = false ∧ ∃ q rest, kseMove s = serveRequest q { s with port := rest }) := by
  rcases Option.eq_none_or_eq_some s.program with hprog | ⟨words, hprog⟩
  · by_cases hbusy : s.busy = true
    · exact .inr (.inl ⟨hprog, hbusy, kseMove_of_busy hprog hbusy⟩)
    · have hidle : s.busy = false := by simpa using hbusy
      cases hport : s.port with
      | nil => exact .inr (.inr (.inl ⟨hprog, hidle, kseMove_of_idle hprog hidle hport⟩))
      | cons q rest => exact .inr (.inr (.inr ⟨hprog, hidle, q, rest, kseMove_of_request hprog hidle hport⟩))
  · exact .inl ⟨words, hprog, kseMove_of_program hprog⟩

/-- How a step control word can end (R210 to R214). -/
inductive StepEnded (s : State) : State → Prop
  | completed {t : State} (hframe : OnlyDatapathChanged s t) (hpc : t.pcNat = s.pcNat + 1) (hlt : s.pcNat < s.nw) :
      StepEnded s t
  | raised (x : Word) : StepEnded s ((s.setTemp x).abortExpansion .indexOutOfRange)

theorem runStepWord_next {w : StepWord} {s t : State} (h : runStepWord w s = .next t) : StepEnded s t := by
  cases hd : decodeStep w with
  | error r => rw [runStepWord_reserved hd] at h; cases h
  | ok i =>
    rw [runStepWord_ok hd] at h
    rcases exec_step_next (decodeStep_ne_getrk hd) h with ⟨hframe, hpc, hlt⟩ | ⟨x, rfl⟩
    · exact .completed hframe hpc hlt
    · exact .raised x

/-- A move of a loaded program runs a word of it or drops it (R103, log entry 4). -/
theorem programMove_next {words : List StepWord} {s t : State} (h : programMove words s = .next t) :
    StepEnded s t ∨ t = { s with program := none } := by
  unfold programMove at h
  split at h
  · split at h
    · exact .inl (runStepWord_next h)
    · cases h
      exact .inr rfl
  · cases h
    exact .inr rfl

/-- A move of the sequencer runs the selector's word or ends the command (R201, R202). -/
theorem sequencerMove_next {s t : State} (h : sequencerMove s = .next t) : StepEnded s t ∨ t = s.finishMiss := by
  rcases Nat.lt_or_ge s.pcNat s.nw with hlt | hge
  · rw [sequencerMove_of_lt hlt] at h
    exact .inl (runStepWord_next h)
  · rw [sequencerMove_of_done hge] at h
    cases h
    exact .inr rfl

/-- How one transition can leave the request latched in `a`: answered, its expansion started, or expanded, stored and
answered (R245 to R249). -/
inductive Served (a : State) : State → Prop
  | answered {r : Response} (hr : r ≠ .err .invalidWordLength) : Served a (a.respond r)
  | started (hlegal : a.var ≠ 3#2) (hmiss : a.cache.lookup a.var a.keyValue = none) : Served a a.startExpansion
  | expanded {sched : List Word} {u : State} {r : Response} (hlegal : a.var ≠ 3#2)
      (hsched : expand a.sboxRom a.keyValue = .ok sched) (hp : Progress sched a a.nw u)
      (hr : r ≠ .err .invalidWordLength) : Served a ((u.store sched).respond r)

theorem served_answer (a : State) (sched : List Word) : Served a (a.answer sched) := by
  obtain ⟨r, h, hr⟩ := answer_response a sched
  rw [h]
  exact .answered hr

theorem served_stored {a u : State} {sched : List Word} (hlegal : a.var ≠ 3#2)
    (hsched : expand a.sboxRom a.keyValue = .ok sched) (hp : Progress sched a a.nw u) :
    Served a ((u.store sched).answer sched) := by
  obtain ⟨r, h, hr⟩ := answer_response (u.store sched) sched
  rw [h]
  exact .expanded hlegal hsched hp hr

theorem served_frontEnd (a : State) : Served a a.frontEnd := by
  rcases frontEnd_cases a with ⟨r, hr, h⟩ | ⟨hlegal, hmiss, h⟩
  · rw [h]; exact .answered hr
  · rw [h]; exact .started hlegal hmiss

/-- A ready KSE serves every `GETRK` (R245). -/
theorem exec_getrk_served (s : State) (keylen index : Byte) {slots : List Byte} (hl : slots.length = 32)
    (hr : s.ready = true) :
    ∃ t, exec (.getrk keylen slots index) s = .next t ∧ Served (s.accept keylen slots index) t := by
  rcases execGetrk_cases s keylen index slots hl hr with
    ⟨-, h⟩ | ⟨-, sched, -, h⟩ | ⟨hlegal, -, sched, u, hsched, hp, -, h⟩
  · exact ⟨_, h, .answered (by simp)⟩
  · exact ⟨_, h, served_answer _ _⟩
  · rw [← accept_keyValue s keylen index hl] at hsched
    exact ⟨_, h, served_stored hlegal hsched hp⟩

/-- KSE's answer to the head of the request channel, at either level: the request waits, or it is accepted and served
(R241). -/
theorem serveRequest_cases (q : Request) (s : State) :
    ∃ t, serveRequest q s = .next t ∧
      ((∃ q', t = s.waitAtPort q') ∨
        s.ready = true ∧ ∃ keylen slots index, Served (s.accept keylen slots index) t) := by
  cases hr : s.ready with
  | false =>
    cases hlevel : s.level with
    | command =>
      rw [serveRequest_command hlevel]
      exact ⟨_, by simp only [decodeRequest, exec, execGetrk, hr]; rfl, .inl ⟨_, rfl⟩⟩
    | step =>
      exact ⟨s.waitAtPort q, by simp only [serveRequest, hlevel, decodeRequest, hr]; rfl, .inl ⟨q, rfl⟩⟩
  | true =>
    cases hlevel : s.level with
    | command =>
      obtain ⟨t, h, hs⟩ := exec_getrk_served s (q.extractLsb' 264 8) (q.extractLsb' 0 8)
        (slots := (List.range 32).map (requestSlot q)) (by simp) hr
      exact ⟨t, (serveRequest_command hlevel q).trans h, .inr ⟨rfl, _, _, _, hs⟩⟩
    | step => exact ⟨_, serveRequest_step hlevel hr q, .inr ⟨rfl, _, _, _, served_frontEnd _⟩⟩

/-- A move of the sequencer while an expansion is under way always goes on: the expansion is one word further, or the
request is served (R201, R202). -/
theorem sequencerMove_of_underWay {s : State} (hu : ExpansionUnderWay s) :
    ∃ t, sequencerMove s = .next t ∧ (OnlyDatapathChanged s t ∧ ExpansionUnderWay t ∨ Served s t) := by
  obtain ⟨sched, hsched, ⟨hlt, t, h, hp⟩ | ⟨hend, h⟩⟩ := sequencerMove_cases hu
  · exact ⟨t, h, .inl ⟨hp.frame, underWay_of_progress hu hsched hlt hp⟩⟩
  · have hp := progress_of_underWay hu hsched
    rw [hend] at hp
    exact ⟨_, h, .inr (served_stored hu.legalLength hsched hp)⟩

/-! ## The frame of a command -/

theorem Served.surroundings {a t : State} (h : Served a t) : SurroundingsUnchanged a t := by
  cases h with
  | answered _ => exact ⟨rfl, rfl, rfl, rfl, rfl, rfl, rfl, rfl⟩
  | started _ _ => exact ⟨rfl, rfl, rfl, rfl, rfl, rfl, rfl, rfl⟩
  | expanded _ _ hp _ =>
    obtain ⟨hsurr, -⟩ := onlyDatapathChanged_frame hp.frame
    exact hsurr

theorem Served.latch {a t : State} (h : Served a t) : t.latch = a.latch := by
  cases h with
  | answered _ => rfl
  | started _ _ => rfl
  | expanded _ _ hp _ =>
    obtain ⟨-, hlatch, -⟩ := onlyDatapathChanged_frame hp.frame
    exact hlatch

/-- Only the bank of the key's variant is written (R249). -/
theorem Served.bank_other {a t : State} (h : Served a t) {var : BitVec 2} (hvar : var ≠ a.var) :
    t.cache.bank var = a.cache.bank var := by
  cases h with
  | answered _ => rfl
  | started _ _ => rfl
  | expanded _ _ hp _ =>
    obtain ⟨-, -, hcache, -, -⟩ := onlyDatapathChanged_frame hp.frame
    obtain ⟨-, -, hv, -⟩ := onlyDatapathChanged_selectors hp.frame
    rw [respond_cache, store_cache, hv, bank_setBank_other hvar, hcache]

/-! ## The latch and the parameters -/

theorem StepEnded.latch {s t : State} (h : StepEnded s t) : t.latch = s.latch := by
  cases h with
  | completed hframe _ _ =>
    obtain ⟨-, hlatch, -⟩ := onlyDatapathChanged_frame hframe
    exact hlatch
  | raised _ => rfl

theorem StepEnded.parameters {s t : State} (h : StepEnded s t) : t.parameters = s.parameters := by
  cases h with
  | completed hframe _ _ =>
    obtain ⟨hsurr, -⟩ := onlyDatapathChanged_frame hframe
    exact parameters_of_surroundings hsurr
  | raised _ => rfl

theorem finishMiss_responds (s : State) : ∃ r, s.finishMiss = (s.store s.builtSchedule).respond r :=
  answer_responds _ _

/-- A busy KSE's move leaves the latch, a loaded program's too (R22). -/
theorem kseMove_latch {s t : State} (hbusy : s.busy = true) (h : kseMove s = .next t) : t.latch = s.latch := by
  rcases kseMove_cases s with ⟨words, -, hk⟩ | ⟨-, -, hk⟩ | ⟨-, hidle, -⟩ | ⟨-, hidle, -⟩
  · rcases programMove_next (hk.symm.trans h) with hstep | rfl
    · exact hstep.latch
    · rfl
  · rcases sequencerMove_next (hk.symm.trans h) with hstep | rfl
    · exact hstep.latch
    · obtain ⟨r, hr⟩ := finishMiss_responds s
      rw [hr]; rfl
  · rw [hbusy] at hidle; cases hidle
  · rw [hbusy] at hidle; cases hidle

theorem kseMove_parameters {s t : State} (h : kseMove s = .next t) : t.parameters = s.parameters := by
  rcases kseMove_cases s with ⟨words, -, hk⟩ | ⟨-, -, hk⟩ | ⟨-, -, hk⟩ | ⟨-, -, q, rest, hk⟩ <;> rw [hk] at h
  · rcases programMove_next h with hstep | rfl
    · exact hstep.parameters
    · rfl
  · rcases sequencerMove_next h with hstep | rfl
    · exact hstep.parameters
    · obtain ⟨r, hr⟩ := finishMiss_responds s
      rw [hr]; rfl
  · cases h
    rfl
  · obtain ⟨u, hu, hcase⟩ := serveRequest_cases q { s with port := rest }
    cases hu.symm.trans h
    rcases hcase with ⟨q', rfl⟩ | ⟨-, keylen, slots, index, hs⟩
    · rfl
    · exact (parameters_of_surroundings hs.surroundings).trans rfl

/-! ## The invariant -/

/-- A state with the same cache and parameters and a pc in range. -/
theorem BaseInv.transfer {s t : State} (h : BaseInv s) (hpc : t.pcNat ≤ 60) (hcache : t.cache = s.cache)
    (hparam : t.parameters = s.parameters) : BaseInv t := by
  obtain ⟨hrom, hcap, -, -⟩ := parameters_eq_iff.1 hparam
  exact ⟨hpc, by rw [hcache]; exact h.cacheForm, by rw [hcache, hrom]; exact h.cacheRight,
    by rw [hcache, hcap]; exact h.cacheCap⟩

theorem BaseInv.onlyDatapathChanged {s t : State} (h : BaseInv s) (hframe : OnlyDatapathChanged s t)
    (hpc : t.pcNat ≤ 60) : BaseInv t := by
  obtain ⟨hsurr, -, hcache, -, -⟩ := onlyDatapathChanged_frame hframe
  exact h.transfer hpc hcache (parameters_of_surroundings hsurr)

/-- A store of the schedule of its key keeps the cache invariants (R40, R41, R249). -/
theorem BaseInv.store {s : State} {sched : List Word} (h : BaseInv s) (hlegal : s.var ≠ 3#2)
    (hsched : expand s.sboxRom s.keyValue = .ok sched) : BaseInv (s.store sched) :=
  ⟨h.pcRange, store_wf sched h.cacheForm, store_cacheRight hlegal hsched h.cacheRight,
    store_withinCap hlegal h.cacheCap⟩

/-- While BUSY = 0 nothing is asked of an expansion. -/
theorem BaseInv.inv_of_idle {s : State} (h : BaseInv s) (hresp : RespFormed s.resp) (hidle : s.busy = false) :
    Inv s :=
  ⟨h.pcRange, h.cacheForm, h.cacheRight, h.cacheCap, hresp, fun hbusy => absurd hbusy (by simp [hidle])⟩

/-- While an expansion is under way no response waits. -/
theorem BaseInv.inv_of_underWay {s : State} (h : BaseInv s) (hu : ExpansionUnderWay s) : Inv s :=
  ⟨h.pcRange, h.cacheForm, h.cacheRight, h.cacheCap, fun hv => absurd hv (by simp [hu.noResponse]), fun _ => hu⟩

/-- While a hand-written program is loaded BUSY is 0 (log entry 4). -/
theorem Inv.idle_of_program {s : State} {words : List StepWord} (h : Inv s) (hprog : s.program = some words) :
    s.busy = false := by
  cases hbusy : s.busy with
  | false => rfl
  | true => rw [(h.running hbusy).noProgram] at hprog; cases hprog

/-- While a response waits BUSY is 0 (R35, R252). -/
theorem Inv.idle_of_response {s : State} (h : Inv s) (hvalid : s.resp.valid = true) : s.busy = false := by
  cases hbusy : s.busy with
  | false => rfl
  | true => rw [(h.running hbusy).noResponse] at hvalid; cases hvalid

/-- Every response but InvalidWordLength is well formed in RESP (R97, R276). -/
theorem respFormed_ofResponse {r : Response} (hr : r ≠ .err .invalidWordLength) : RespFormed (Resp.ofResponse r) := by
  intro _
  cases r with
  | ok w => exact ⟨by simp [Resp.ofResponse, Response.code], fun h => absurd rfl h⟩
  | err e =>
    cases e with
    | invalidKeyLength => exact ⟨by decide, fun _ => rfl⟩
    | indexOutOfRange => exact ⟨by decide, fun _ => rfl⟩
    | invalidWordLength => exact absurd rfl hr

theorem BaseInv.inv_respond {s : State} {r : Response} (h : BaseInv s) (hr : r ≠ .err .invalidWordLength) :
    Inv (s.respond r) :=
  (h.transfer (t := s.respond r) h.pcRange rfl rfl).inv_of_idle (respFormed_ofResponse hr) rfl

/-- A served request leaves the invariant: answered, KSE is idle; started, the expansion is under way. -/
theorem Served.inv {a t : State} (h : Served a t) (hbase : BaseInv a) (hprog : a.program = none)
    (hresp : a.resp.valid = false) : Inv t := by
  cases h with
  | answered hr => exact hbase.inv_respond hr
  | started hlegal hmiss =>
    have hstart : BaseInv a.startExpansion := hbase.transfer (by simp) rfl rfl
    exact hstart.inv_of_underWay (startExpansion_underWay hprog hresp hlegal hmiss)
  | @expanded sched u r hlegal hsched hp hr =>
    obtain ⟨hsurr, -⟩ := onlyDatapathChanged_frame hp.frame
    obtain ⟨hrom, -⟩ := parameters_eq_iff.1 (parameters_of_surroundings hsurr)
    obtain ⟨-, -, hvar, hkey, -⟩ := onlyDatapathChanged_selectors hp.frame
    have hu : BaseInv u := hbase.onlyDatapathChanged hp.frame (by rw [hp.pc]; exact nw_le a)
    exact (hu.store (by rw [hvar]; exact hlegal) (by rw [hrom, hkey]; exact hsched)).inv_respond hr

theorem StepEnded.inv_of_program {s t : State} (h : StepEnded s t) (hinv : Inv s) (hidle : s.busy = false) :
    Inv t := by
  cases h with
  | completed hframe hpc hlt =>
    obtain ⟨-, -, -, hresp, hbusy⟩ := onlyDatapathChanged_frame hframe
    have hnw := nw_le s
    exact (hinv.base.onlyDatapathChanged hframe (by omega)).inv_of_idle (by rw [hresp]; exact hinv.respFormed)
      (hbusy.trans hidle)
  | raised x =>
    have hbase : BaseInv ((s.setTemp x).abortExpansion .indexOutOfRange) := hinv.base.transfer hinv.pcRange rfl rfl
    exact hbase.inv_of_idle (respFormed_ofResponse (by simp)) rfl

/-- The invariant does not look at HOST's script or at the request channel. -/
theorem Inv.setChannel {s : State} (h : Inv s) (moves : List HostMove) (port : List Request) :
    Inv { s with host := moves, port := port } where
  pcRange := h.pcRange
  cacheForm := h.cacheForm
  cacheRight := h.cacheRight
  cacheCap := h.cacheCap
  respFormed := h.respFormed
  running := fun hbusy =>
    have hu := h.running hbusy
    ⟨hu.noProgram, hu.noResponse, hu.legalLength, hu.missed, hu.pcWithin, hu.marks, hu.built, hu.generator⟩

theorem Inv.takeResponse {s : State} (h : Inv s) (hvalid : s.resp.valid = true) : Inv s.takeResponse :=
  (h.base.transfer (t := s.takeResponse) h.pcRange rfl rfl).inv_of_idle (fun hv => by cases hv)
    (h.idle_of_response hvalid)

/-- The banks of the reset cache are empty (R29). -/
theorem bank_empty (var : BitVec 2) : (⟨[], [], []⟩ : Cache).bank var = [] := by
  rcases var_cases var with rfl | rfl | rfl | rfl <;> rfl

/-- The reset input leads to the invariant from every state (R311). -/
theorem inv_resetInput (s : State) : Inv s.resetInput where
  pcRange := Nat.zero_le _
  cacheForm := reset_wf
  cacheRight := fun var e he => by
    have hempty : s.resetInput.cache.bank var = [] := bank_empty var
    rw [hempty] at he
    cases he
  cacheCap := fun n _ var => by
    have hempty : s.resetInput.cache.bank var = [] := bank_empty var
    rw [hempty]
    exact Nat.zero_le n
  respFormed := fun h => by cases h
  running := fun h => by cases h

theorem programMove_inv {words : List StepWord} {s t : State} (hinv : Inv s) (hprog : s.program = some words)
    (h : programMove words s = .next t) : Inv t := by
  have hidle := hinv.idle_of_program hprog
  rcases programMove_next h with hstep | rfl
  · exact hstep.inv_of_program hinv hidle
  · exact (hinv.base.transfer (t := { s with program := none }) hinv.pcRange rfl rfl).inv_of_idle hinv.respFormed hidle

theorem sequencerMove_inv {s t : State} (hinv : Inv s) (hbusy : s.busy = true) (h : sequencerMove s = .next t) :
    Inv t := by
  have hu := hinv.running hbusy
  obtain ⟨u, hnext, hcase⟩ := sequencerMove_of_underWay hu
  cases hnext.symm.trans h
  rcases hcase with ⟨hframe, hu'⟩ | hs
  · have hpc := hu'.pcWithin.trans (nw_le t)
    exact (hinv.base.onlyDatapathChanged hframe hpc).inv_of_underWay hu'
  · exact hs.inv hinv.base hu.noProgram hu.noResponse

theorem serveRequest_inv {q : Request} {s t : State} (hinv : Inv s) (hprog : s.program = none)
    (h : serveRequest q s = .next t) : Inv t := by
  obtain ⟨u, hnext, hcase⟩ := serveRequest_cases q s
  cases hnext.symm.trans h
  rcases hcase with ⟨q', rfl⟩ | ⟨hready, keylen, slots, index, hs⟩
  · exact hinv.setChannel s.host (q' :: s.port)
  · obtain ⟨-, hresp⟩ := ready_iff.1 hready
    exact hs.inv (hinv.base.transfer hinv.pcRange rfl rfl) hprog hresp

theorem kseMove_inv {s t : State} (hinv : Inv s) (h : kseMove s = .next t) : Inv t := by
  rcases kseMove_cases s with ⟨words, hprog, hk⟩ | ⟨-, hbusy, hk⟩ | ⟨-, -, hk⟩ | ⟨hprog, -, q, rest, hk⟩ <;>
    rw [hk] at h
  · exact programMove_inv hinv hprog h
  · exact sequencerMove_inv hinv hbusy h
  · cases h
    exact hinv
  · exact serveRequest_inv (hinv.setChannel s.host rest) hprog h

/-- Without a loaded program a move of KSE goes on, and none is loaded (R277). -/
theorem kseMove_goes_on {s : State} (hinv : Inv s) (hprog : s.program = none) :
    ∃ t, kseMove s = .next t ∧ t.program = none := by
  rcases kseMove_cases s with ⟨words, hsome, -⟩ | ⟨-, hbusy, hk⟩ | ⟨-, -, hk⟩ | ⟨-, -, q, rest, hk⟩
  · rw [hprog] at hsome; cases hsome
  · obtain ⟨t, hnext, ⟨-, hu⟩ | hs⟩ := sequencerMove_of_underWay (hinv.running hbusy)
    · exact ⟨t, hk.trans hnext, hu.noProgram⟩
    · obtain ⟨-, -, -, -, hsame, -⟩ := hs.surroundings
      exact ⟨t, hk.trans hnext, hsame.trans hprog⟩
  · exact ⟨s, hk, hprog⟩
  · obtain ⟨t, hnext, ⟨q', rfl⟩ | ⟨-, keylen, slots, index, hs⟩⟩ := serveRequest_cases q { s with port := rest }
    · exact ⟨_, hk.trans hnext, hprog⟩
    · obtain ⟨-, -, -, -, hsame, -⟩ := hs.surroundings
      exact ⟨t, hk.trans hnext, hsame.trans hprog⟩

/-! ## The statements on every step -/

/-- Settles O49: a move of KSE keeps the invariant by `kseMove_inv`; HOST's offer does not touch it, its taking meets an
idle KSE, its reset empties the cache. -/
theorem everyStepKeepsTheInvariant : Obligations.EveryStepKeepsTheInvariant := by
  unfold Obligations.EveryStepKeepsTheInvariant
  intro s t hinv h
  rcases step_cases s with ⟨moves, hs⟩ | ⟨moves, q, hs⟩ | ⟨moves, hvalid, hs⟩ | ⟨moves, -, hs⟩ <;> rw [hs] at h
  · exact kseMove_inv (hinv.setChannel moves s.port) h
  · cases h
    exact hinv.setChannel moves (s.port ++ [q])
  · cases h
    exact (hinv.takeResponse hvalid).setChannel moves s.port
  · cases h
    exact (inv_resetInput s).setChannel moves s.port

/-- Settles O50: HOST's moves always go on, and KSE's do by `kseMove_goes_on`. -/
theorem hardwareNeverStops : Obligations.HardwareNeverStops := by
  unfold Obligations.HardwareNeverStops
  intro s hinv hprog
  rcases step_cases s with ⟨moves, hs⟩ | ⟨moves, q, hs⟩ | ⟨moves, -, hs⟩ | ⟨moves, -, hs⟩
  · rw [hs]
    exact kseMove_goes_on (hinv.setChannel moves s.port) hprog
  · exact ⟨_, hs, hprog⟩
  · exact ⟨_, hs, hprog⟩
  · exact ⟨_, hs, rfl⟩

/-- Settles O8: HOST's offer and taking do not reach the latch, and a busy KSE's move leaves it. -/
theorem latchHoldsWhileBusy : Obligations.LatchHoldsWhileBusy := by
  unfold Obligations.LatchHoldsWhileBusy
  intro s t hbusy hnoreset h
  rw [← latch_eq_iff]
  rcases step_cases s with ⟨moves, hs⟩ | ⟨moves, q, hs⟩ | ⟨moves, -, hs⟩ | ⟨moves, hreset, -⟩
  · exact kseMove_latch (s := { s with host := moves }) hbusy (hs.symm.trans h)
  · cases hs.symm.trans h; rfl
  · cases hs.symm.trans h; rfl
  · exact absurd hreset (hnoreset moves)

/-- Settles O21: HOST's moves, its reset among them, name none of the parameters, and KSE's leave them. -/
theorem parametersNeverChange : Obligations.ParametersNeverChange := by
  unfold Obligations.ParametersNeverChange
  intro s t h
  rw [← parameters_eq_iff]
  rcases step_cases s with ⟨moves, hs⟩ | ⟨moves, q, hs⟩ | ⟨moves, -, hs⟩ | ⟨moves, -, hs⟩
  · exact kseMove_parameters (s := { s with host := moves }) (hs.symm.trans h)
  · cases hs.symm.trans h; rfl
  · cases hs.symm.trans h; rfl
  · cases hs.symm.trans h; rfl

/-! ## One command -/

/-- After acceptance the latch holds the request (R22). -/
theorem accept_latched (s : State) (keylen index : Byte) {slots : List Byte} (hl : slots.length = 32) :
    Latched (s.accept keylen slots index) keylen slots index :=
  ⟨rfl, accept_key_toList s keylen index hl, rfl⟩

/-- Settles O40: acceptance writes the latch and BUSY only, and what serves the latched request keeps the frame. -/
theorem getrkFrame : Obligations.GetrkFrame := by
  unfold Obligations.GetrkFrame
  intro s t keylen index slots hl hr h
  obtain ⟨u, hu, hs⟩ := exec_getrk_served s keylen index hl hr
  cases hu.symm.trans h
  obtain ⟨hkeylen, hkey, hindex⟩ := latch_eq_iff.1 hs.latch
  obtain ⟨-, hslots, -⟩ := accept_latched s keylen index hl
  exact ⟨⟨hkeylen, (congrArg Vector.toList hkey).trans hslots, hindex⟩, hs.surroundings,
    fun _ hvar => hs.bank_other hvar⟩

/-- A miss on a legal length starts an expansion (R248). -/
theorem frontEnd_of_miss {s : State} (hlegal : s.var ≠ 3#2) (hmiss : s.cache.lookup s.var s.keyValue = none) :
    s.frontEnd = s.startExpansion := by
  unfold State.frontEnd
  rw [if_neg hlegal, hmiss]

/-- Settles O44: the step is acceptance and the front end, which on a miss is the start of an expansion. -/
theorem missStartsAnExpansion : Obligations.MissStartsAnExpansion := by
  unfold Obligations.MissStartsAnExpansion
  intro s q rest keylen index slots hq hhost hprog hr hlevel hport hlegal hmiss
  have hstep := step_of_request_at_step_level hhost hprog hr hlevel hport
  obtain ⟨rfl, rfl, rfl⟩ := Instr.getrk.inj hq
  have hl : ((List.range 32).map (requestSlot q)).length = 32 := by simp
  generalize q.extractLsb' 264 8 = keylen, (List.range 32).map (requestSlot q) = slots,
    q.extractLsb' 0 8 = index at *
  have hkey := accept_keyValue { s with port := rest } keylen index hl
  rw [frontEnd_of_miss (s := ({ s with port := rest } : State).accept keylen slots index) hlegal
    (by rw [hkey]; exact hmiss)] at hstep
  exact ⟨_, hstep, accept_latched { s with port := rest } keylen index hl, rfl, rfl, fun i hi => by simp [hi],
    fun hrc => by simp [hrc], fun hrc => by simp [hrc], rfl, rfl⟩

/-! ## The store (R41, R249) -/

theorem bankStore_zero (n : Nat) (bank : List Entry) (e : Entry) : bankStore (some 0) n bank e = bank := rfl

theorem bankStore_of_room {cap n : Nat} {bank : List Entry} (e : Entry) (hroom : bank.length < cap) :
    bankStore (some cap) n bank e = bankInsert e bank := by
  have hcap : cap ≠ 0 := by omega
  simp [bankStore, bankFull, hcap, hroom]

theorem bankStore_of_full {cap n : Nat} {bank : List Entry} (e : Entry) (hcap : 0 < cap) (hfull : bank.length = cap) :
    bankStore (some cap) n bank e = bankInsert e (bankEvict n bank) := by
  have hcap : cap ≠ 0 := by omega
  simp [bankStore, bankFull, hcap, hfull]

/-- Settles O46: the store inserts the new entry, into a bank that has lost the drawn victim where it was full. -/
theorem storeKeepsTheCapacity : Obligations.StoreKeepsTheCapacity := by
  unfold Obligations.StoreKeepsTheCapacity
  intro cap n bank e hlen hnew
  refine ⟨length_bankStore_le hlen, fun hzero => ?_, fun hroom => ?_, fun hcap hfull => ?_⟩
  · rw [hzero, bankStore_zero]
  · rw [bankStore_of_room e hroom]
    exact bankInsert_perm hnew
  · rw [bankStore_of_full e hcap hfull]
    have hleft : ∀ x ∈ bankEvict n bank, x.key ≠ e.key := fun x hx => hnew x (List.mem_of_mem_eraseIdx hx)
    exact ⟨Config.victim n % bank.length, Nat.mod_lt _ (by omega), bankInsert_perm hleft⟩

/-! ## Reset (R29, R44, R311) -/

/-- Settles O1: the three banks of the reset state are empty, so no lookup finds an entry. -/
theorem resetCacheIsEmpty : Obligations.ResetCacheIsEmpty := by
  unfold Obligations.ResetCacheIsEmpty
  intro var key
  have hempty : State.reset.cache.bank var = [] := bank_empty var
  exact ⟨hempty, by rw [Cache.lookup, hempty]; rfl⟩

/-- Settles O2: with neither a HOST move nor a request the reset state's step is KSE's waiting. -/
theorem resetLeavesKseIdle : Obligations.ResetLeavesKseIdle := by
  unfold Obligations.ResetLeavesKseIdle
  have hmarks : ∀ i, i < 60 → State.reset.wv[i]? = some false := fun i hi => by simp [State.reset, hi]
  have hwaits : step State.reset = .next State.reset :=
    (step_of_no_host rfl).trans (kseMove_of_idle rfl rfl rfl)
  exact ⟨rfl, rfl, rfl, hmarks, rfl, hwaits⟩

/-- Settles O48: the reset state is what the reset input makes of it. -/
theorem resetMeetsTheInvariant : Obligations.ResetMeetsTheInvariant := by
  unfold Obligations.ResetMeetsTheInvariant
  exact inv_resetInput State.reset

end Sys2Proof.Machine

/-! # Step instructions and the words that carry them (spec/20_memory.md R61, R76; spec/10_state.md R27)

What an executed step instruction leaves alone is read off the two ways it can end (`StepEnded`); which instruction a
step executes, off the lemmas that say who moves. -/

namespace Sys2Proof.Machine

/-! ## The frame of a step instruction -/

theorem exec_stepEnded {i : Instr} {s t : State} (hi : ∀ a b c, i ≠ .getrk a b c) (h : exec i s = .next t) :
    StepEnded s t := by
  rcases exec_step_next hi h with ⟨hframe, hpc, hlt⟩ | ⟨x, rfl⟩
  · exact .completed hframe hpc hlt
  · exact .raised x

/-- No step instruction writes the cache or draws a victim: only the store of a command does (R61, R249). -/
theorem StepEnded.cache_draws {s t : State} (h : StepEnded s t) : t.cache = s.cache ∧ t.draws = s.draws := by
  cases h with
  | completed hframe _ _ =>
    rw [OnlyDatapathChanged] at hframe
    rw [hframe]
    exact ⟨rfl, rfl⟩
  | raised x => exact ⟨rfl, rfl⟩

/-- No step instruction reaches the request channel or HOST's script and record (R61). -/
theorem StepEnded.channels {s t : State} (h : StepEnded s t) :
    t.port = s.port ∧ t.host = s.host ∧ t.received = s.received := by
  cases h with
  | completed hframe _ _ =>
    obtain ⟨⟨hport, hhost, hreceived, -⟩, -⟩ := onlyDatapathChanged_frame hframe
    exact ⟨hport, hhost, hreceived⟩
  | raised x => exact ⟨rfl, rfl, rfl⟩

/-- The counter rises when the step completes and stands still when it raises (R27, R214). -/
theorem StepEnded.pcNat_cases {s t : State} (h : StepEnded s t) : t.pcNat = s.pcNat + 1 ∨ t.pcNat = s.pcNat := by
  cases h with
  | completed _ hpc _ => exact .inl hpc
  | raised x => exact .inr rfl

/-- Settles O34: a step instruction completes or raises, and neither end reaches the latch, the cache, the channels or
the parameters. -/
theorem stepInstructionsStayInTheDatapath : Obligations.StepInstructionsStayInTheDatapath := by
  unfold Obligations.StepInstructionsStayInTheDatapath
  intro i s t hi h
  have hend := exec_stepEnded hi h
  obtain ⟨hkeylen, hkey, hindex⟩ := latch_eq_iff.1 hend.latch
  obtain ⟨hcache, hdraws⟩ := hend.cache_draws
  obtain ⟨hport, hhost, hreceived⟩ := hend.channels
  obtain ⟨hrom, hcap, hrc, hlevel⟩ := parameters_eq_iff.1 hend.parameters
  exact ⟨hkeylen, hkey, hindex, hcache, hdraws, hport, hhost, hreceived, hcap, hrc, hrom, hlevel, hend.pcNat_cases⟩

/-! ## The instruction a step executes -/

/-- At the command level the request at the head of the channel is executed, off the channel (R241, R245). -/
theorem step_of_request_at_command_level {s : State} {q : Request} {rest : List Request} (hhost : s.host = [])
    (hprog : s.program = none) (hidle : s.busy = false) (hlevel : s.level = .command) (hport : s.port = q :: rest) :
    step s = exec (decodeRequest q) { s with port := rest } := by
  rw [step_of_no_host hhost, kseMove_of_request hprog hidle hport]
  exact serveRequest_command (s := { s with port := rest }) hlevel q

/-- A loaded program's word at pc is executed (R103; log entry 4). -/
theorem step_of_program_word {s : State} {words : List StepWord} {w : StepWord} {i : Instr} (hhost : s.host = [])
    (hprog : s.program = some words) (hlt : s.pcNat < s.nw) (hw : words[s.pcNat]? = some w)
    (hi : decodeStep w = .ok i) : step s = exec i s := by
  rw [step_of_no_host hhost, kseMove_of_program hprog, programMove_of_word hlt hw, runStepWord_ok hi]

/-- While BUSY the selector's word at pc is executed (R76, R201). -/
theorem step_of_selector_word {s : State} {i : Instr} (hhost : s.host = []) (hprog : s.program = none)
    (hbusy : s.busy = true) (hlt : s.pcNat < s.nw) (hi : decodeStep (stepSel s.nk s.pcNat) = .ok i) :
    step s = exec i s := by
  rw [step_of_no_host hhost, kseMove_of_busy hprog hbusy, sequencerMove_of_lt hlt, runStepWord_ok hi]

/-- Settles O47: a word comes to be executed from the request channel, from a loaded program or from the selector, one
lemma for each. -/
theorem stepRunsTheDecodedInstruction : Obligations.StepRunsTheDecodedInstruction := by
  unfold Obligations.StepRunsTheDecodedInstruction
  refine ⟨fun s q rest hhost hprog hidle hlevel hport => ?_, fun s words w i hhost hprog hlt hw hi => ?_,
    fun s i hhost hprog hbusy hlt hi => ?_⟩
  · exact ⟨decodeRequest q, rfl, step_of_request_at_command_level hhost hprog hidle hlevel hport⟩
  · exact step_of_program_word hhost hprog hlt hw hi
  · exact step_of_selector_word hhost hprog hbusy hlt hi

end Sys2Proof.Machine

/-! # Words, instructions and responses (spec/30_encoding.md)

A step control word is decoded by the one row that matches it; a request is the string of its 34 bytes, most significant
first; a format A word is its two fields side by side. Decoding and encoding are compared part by part. -/

namespace Sys2Proof.Machine

/-! ## The opcode map of format S (R99, R109) -/

/-- Settles O15: the four rows are compared on each of the 256 words. -/
theorem opcodeRowsDoNotOverlap : Obligations.OpcodeRowsDoNotOverlap := by
  unfold Obligations.OpcodeRowsDoNotOverlap
  decide +kernel

/-- The row that matches a word decodes it, wherever it stands in the map (R109). -/
theorem decodeStep_of_row {r : StepRow} {w : StepWord} (hr : r ∈ stepRows) (hw : r.matchesWord w = true) :
    decodeStep w = .ok (r.instr w.rci) := by
  have honly : stepRows.filter (·.matchesWord w) = [r] := by
    have hmem : r ∈ stepRows.filter (·.matchesWord w) := List.mem_filter.2 ⟨hr, hw⟩
    have hone := opcodeRowsDoNotOverlap w
    generalize stepRows.filter (·.matchesWord w) = rows at hmem hone
    match rows with
    | [] => cases hmem
    | [x] => rw [List.mem_singleton.1 hmem]
    | _ :: _ :: _ => simp at hone
  have hfind : stepRows.find? (·.matchesWord w) = some r := by rw [← List.head?_filter, honly]; rfl
  rw [decodeStep, hfind]

/-- A word that decodes is matched by a row, which reads the instruction from it (R99). -/
theorem row_of_decodeStep {w : StepWord} {i : Instr} (h : decodeStep w = .ok i) :
    ∃ r ∈ stepRows, r.matchesWord w = true ∧ r.instr w.rci = i := by
  unfold decodeStep at h
  split at h
  · rename_i r hfind
    have hmatch : r.matchesWord w = true := List.find?_some (p := fun x : StepRow => x.matchesWord w) hfind
    exact ⟨r, List.mem_of_find?_eq_some hfind, hmatch, Except.ok.inj h⟩
  · cases h

/-- The instructions of format S with their words (R99, R101). -/
inductive StepEncodes : StepWord → Instr → Prop
  | kld : StepEncodes 0x80#8 .kld
  | xp : StepEncodes 0x00#8 .xp
  | xs : StepEncodes 0x20#8 .xs
  | xg {j : Nat} (hj : j < 16) : StepEncodes (0x70#8 + BitVec.ofNat 8 j) (.xg j)

/-- A word with the pattern of `XG` is 0x70 and its constant index (R101). -/
theorem xg_pattern : ∀ w : StepWord, w &&& 0xF0#8 = 0x70#8 → w = 0x70#8 + BitVec.ofNat 8 w.rci := by
  decide

theorem stepEncodes_of_decodeStep {w : StepWord} {i : Instr} (h : decodeStep w = .ok i) : StepEncodes w i := by
  obtain ⟨r, hr, hw, rfl⟩ := row_of_decodeStep h
  have hfull : w &&& 0xFF#8 = w := BitVec.and_allOnes
  simp only [stepRows, List.mem_cons, List.not_mem_nil, or_false] at hr
  rcases hr with rfl | rfl | rfl | rfl <;> simp only [StepRow.matchesWord, beq_iff_eq] at hw
  · rw [← hfull, hw]; exact .kld
  · rw [← hfull, hw]; exact .xp
  · rw [← hfull, hw]; exact .xs
  · have hxg := StepEncodes.xg (j := w.rci) (w.extractLsb' 0 4).isLt
    rwa [← xg_pattern w hw] at hxg

/-- The word `encode` gives a well-formed step instruction decodes to it, by its row of the opcode table. -/
theorem decode_of_opcodeRow {i : Instr} {w : StepWord} (hi : i.wf = true) (hw : encode i = .step w)
    (hrow : Laws.OpcodeRow.Statement i) : decode (encode i) = .ok i := by
  have h := hrow hi
  rw [hw] at h ⊢
  obtain ⟨r, hr, hmatch, rfl⟩ := h
  exact decodeStep_of_row hr hmatch

/-! ## The bytes of a request (R91) -/

/-- Byte `k` of a request, the most significant being byte 0. -/
def requestByte (q : Request) (k : Nat) : Byte := q.extractLsb' (8 * (33 - k)) 8

theorem requestSlot_eq_requestByte (q : Request) (k : Nat) : requestSlot q k = requestByte q (k + 1) := by
  unfold requestSlot requestByte
  congr 1
  omega

/-- The fields of a request are its 34 bytes in order: KEYLEN, the 32 slots, INDEX. -/
theorem requestFields_eq_bytes (q : Request) :
    requestByte q 0 :: (List.range 32).map (requestSlot q) ++ [requestByte q 33] =
      (List.range 34).map (requestByte q) := by
  have hrange : List.range 34 = 0 :: (List.range 32).map Nat.succ ++ [33] := by decide
  have hslot : requestSlot q = requestByte q ∘ Nat.succ := funext (requestSlot_eq_requestByte q)
  rw [hrange, hslot]
  simp only [List.map_cons, List.map_append, List.map_map, List.map_nil]

/-- Two requests with the same 34 bytes are equal. -/
theorem request_ext {p q : Request} (h : ∀ k, k < 34 → requestByte p k = requestByte q k) : p = q := by
  apply BitVec.eq_of_getLsbD_eq
  intro i hi
  have hbyte := congrArg (·.getLsbD (i % 8)) (h (33 - i / 8) (by omega))
  have hbit : 8 * (33 - (33 - i / 8)) + i % 8 = i := by omega
  simpa [requestByte, hbit, Nat.mod_lt] using hbyte

theorem requestByte_encodeRequest (keylen index : Byte) {slots : List Byte} (hl : slots.length = 32) {k : Nat}
    (hk : k < 34) :
    requestByte (encodeRequest keylen slots index) k = (keylen :: slots ++ [index])[k]'(by simp [hl]; omega) :=
  request_byte _ (by simp [hl]) k hk

/-- Decoding the request of 34 bytes gives its three fields back. -/
theorem decodeRequest_encodeRequest (keylen index : Byte) {slots : List Byte} (hl : slots.length = 32) :
    decodeRequest (encodeRequest keylen slots index) = .getrk keylen slots index := by
  have hbyte := @requestByte_encodeRequest keylen index slots hl
  have hslots : (List.range 32).map (requestSlot (encodeRequest keylen slots index)) = slots := by
    refine List.ext_getElem (by simp [hl]) fun k hk hk' => ?_
    rw [List.getElem_map, List.getElem_range, requestSlot_eq_requestByte, hbyte (by omega)]
    simp [hk']
  have hkeylen := hbyte (k := 0) (by omega)
  have hindex : requestByte (encodeRequest keylen slots index) 33 = index := by
    rw [hbyte (by omega)]
    simp [hl]
  exact congr (congr (congrArg Instr.getrk hkeylen) hslots) hindex

/-- A request is the request of its own fields. -/
theorem encodeRequest_fields (q : Request) :
    encodeRequest (requestByte q 0) ((List.range 32).map (requestSlot q)) (requestByte q 33) = q := by
  refine request_ext fun k hk => ?_
  rw [requestByte_encodeRequest _ _ (by simp) hk]
  simp only [requestFields_eq_bytes, List.getElem_map, List.getElem_range]

/-! ## Decoding and encoding -/

/-- Settles O9: a request gives its bytes back, and the word of a step instruction is read by the row of its own. -/
theorem decodeOfEncodeIsTheInstruction : Obligations.DecodeOfEncodeIsTheInstruction := by
  unfold Obligations.DecodeOfEncodeIsTheInstruction
  intro i hi
  cases i with
  | getrk keylen slots index =>
    have hl : slots.length = 32 := by simpa [Instr.wf] using hi
    exact congrArg Except.ok (decodeRequest_encodeRequest keylen index hl)
  | kld => exact decode_of_opcodeRow hi rfl Laws.OpcodeRow.kld
  | xp => exact decode_of_opcodeRow hi rfl Laws.OpcodeRow.xp
  | xs => exact decode_of_opcodeRow hi rfl Laws.OpcodeRow.xs
  | xg j => exact decode_of_opcodeRow hi rfl (Laws.OpcodeRow.xg j)

/-- Settles O10: a request is made of its 34 bytes, and a step control word that decodes is one of `StepEncodes`. -/
theorem encodeOfDecodeIsTheWord : Obligations.EncodeOfDecodeIsTheWord := by
  unfold Obligations.EncodeOfDecodeIsTheWord
  intro c i h
  cases c with
  | request q =>
    cases h
    exact ⟨by simp [decodeRequest, Instr.wf], congrArg CodeWord.request (encodeRequest_fields q)⟩
  | step w =>
    cases stepEncodes_of_decodeStep h with
    | kld => exact ⟨rfl, rfl⟩
    | xp => exact ⟨rfl, rfl⟩
    | xs => exact ⟨rfl, rfl⟩
    | xg hj => exact ⟨by simpa [Instr.wf] using hj, rfl⟩

/-- A byte of a request as a number. -/
theorem requestByte_toNat (q : Request) (k : Nat) :
    (requestByte q k).toNat = q.toNat / 2 ^ (8 * (33 - k)) % 2 ^ 8 := by
  rw [requestByte, BitVec.extractLsb'_toNat, Nat.shiftRight_eq_div_pow]

/-- Settles O11: the three fields are bytes of the request, the most significant one with nothing above it. -/
theorem everyRequestIsGetrk : Obligations.EveryRequestIsGetrk := by
  unfold Obligations.EveryRequestIsGetrk
  intro q
  refine ⟨requestByte q 0, (List.range 32).map (requestSlot q), requestByte q 33, rfl, ?_, ?_, by simp, fun k hk => ?_⟩
  · have htop : q.toNat / 2 ^ 264 < 2 ^ 8 := by
      have hq := q.isLt
      omega
    rw [requestByte_toNat, Nat.mod_eq_of_lt htop]
  · rw [requestByte_toNat, Nat.sub_self, Nat.mul_zero, Nat.pow_zero, Nat.div_one]
  · have hbit : 8 * (33 - (k + 1)) = 256 - 8 * k := by omega
    simp only [List.getD_eq_getElem?_getD, List.getElem?_map, List.getElem?_range hk, Option.map_some, Option.getD_some]
    rw [requestSlot_eq_requestByte, requestByte_toNat, hbit]

/-- Settles O12: the step words are read by their rows, and T40's request is the encoding of its `GETRK`. -/
theorem specWordsDecode : Obligations.SpecWordsDecode := by
  unfold Obligations.SpecWordsDecode
  refine ⟨rfl, rfl, rfl, rfl, rfl, rfl, ?_⟩
  decide +kernel

/-! ## Reserved step control words (R102, R278) -/

/-- Settles O13: the 256 words are counted, and each group's condition is compared with the decoder's on every word. -/
theorem reservedStepWords : Obligations.ReservedStepWords := by
  unfold Obligations.ReservedStepWords
  refine ⟨by decide +kernel, fun w => ⟨?_, ?_, ?_⟩⟩ <;> revert w
  · decide +kernel
  · decide +kernel
  · decide +kernel

/-- Settles O14: with no HOST move the loaded program has the step, and its word at pc has no instruction. -/
theorem reservedStepWordRefused : Obligations.ReservedStepWordRefused := by
  unfold Obligations.ReservedStepWordRefused
  intro s words w r hhost hprog hlt hw hreserved
  calc step s = programMove words s := by rw [step_of_no_host hhost, kseMove_of_program hprog]
    _ = runStepWord w s := programMove_of_word hlt hw
    _ = .refused (.reservedStepWord w) := runStepWord_reserved hreserved s

/-! ## The fields of a step control word and its instruction (R98, R100, R103) -/

/-- The fields of the word of `XG j`: the chain with every unit enabled and the constant index `j` (R99, R101). -/
theorem xg_fields : ∀ j, j < 16 → ∀ w : StepWord, w = 0x70#8 + BitVec.ofNat 8 j →
    w.ld = false ∧ w.rot = true ∧ w.sub = true ∧ w.rce = true ∧ w.rci = j := by
  rintro j hj w rfl
  revert j
  decide

/-- Settles O33: the four words that decode have LD, ROT, SUB, RCE and RCI as their instructions use them. -/
theorem datapathFormulaIsTheInstruction : Obligations.DatapathFormulaIsTheInstruction := by
  unfold Obligations.DatapathFormulaIsTheInstruction
  intro w i s h
  cases stepEncodes_of_decodeStep h with
  | kld => exact (exec_kld s).symm
  | xp => exact (exec_xp s).symm
  | xs => exact (exec_xs s).symm
  | @xg j hj =>
    obtain ⟨hld, hrot, hsub, hrce, hrci⟩ := xg_fields j hj _ rfl
    rw [exec_xg, datapath, hld, hrot, hsub, hrce, hrci]
    rfl

/-- Settles O31: the key load and the chain test the position before anything else. -/
theorem illegalPositionRefused : Obligations.IllegalPositionRefused := by
  unfold Obligations.IllegalPositionRefused
  refine fun s j => ⟨fun hge => ?_, fun hout => ⟨?_, ?_, ?_⟩⟩
  · rcases loadKeyWord_cases s with ⟨hlt, -⟩ | ⟨-, h⟩
    · omega
    · exact (exec_kld s).trans h
  · exact (exec_xp s).trans (chainStep_illegal hout)
  · exact (exec_xs s).trans (chainStep_illegal hout)
  · exact (exec_xg j s).trans (chainStep_illegal hout)

/-! ## Responses (R95 to R97) -/

theorem encode_extract_code (r : Response) : r.encode.extractLsb' 32 2 = r.code := by
  rw [Response.encode, BitVec.extractLsb'_append_eq_of_le (by omega)]
  simp

theorem encode_extract_word (r : Response) : r.encode.extractLsb' 0 32 = r.word := by
  rw [Response.encode, BitVec.extractLsb'_append_eq_of_add_le (by omega)]
  simp

theorem encode_toNat (r : Response) : r.encode.toNat = r.code.toNat * 2 ^ 32 + r.word.toNat := by
  rw [Response.encode, BitVec.toNat_append, ← Nat.shiftLeft_add_eq_or_of_lt r.word.isLt, Nat.shiftLeft_eq]

/-- A response is read back from its word: the two fields name it (R96). -/
theorem decodeResponse_encode (r : Response) : decodeResponse r.encode = some r := by
  unfold decodeResponse
  rw [encode_extract_code, encode_extract_word]
  cases r with
  | ok w => rfl
  | err e => cases e <;> rfl

/-- What is read from a format A word has that word's fields: CODE 0 is `Ok`, and an error's WORD is zero (R97). -/
theorem fields_of_decodeResponse {a : ResponseWord} {r : Response} (h : decodeResponse a = some r) :
    r.code = a.extractLsb' 32 2 ∧ r.word = a.extractLsb' 0 32 := by
  simp only [decodeResponse] at h
  generalize a.extractLsb' 32 2 = code, a.extractLsb' 0 32 = word at h ⊢
  split at h
  · rename_i hok
    cases h
    exact ⟨hok.symm, rfl⟩
  split at h
  · rename_i hok hzero
    cases h
    refine ⟨?_, hzero.symm⟩
    rcases var_cases code with rfl | rfl | rfl | rfl
    · exact absurd rfl hok
    · rfl
    · rfl
    · rfl
  · cases h

/-- Settles O16: encoding and reading keep the two fields, which are all there is of a format A word. -/
theorem responseWordsReadBack : Obligations.ResponseWordsReadBack := by
  unfold Obligations.ResponseWordsReadBack
  refine ⟨fun r => ⟨decodeResponse_encode r, encode_toNat r⟩, fun a r h => ?_⟩
  obtain ⟨hcode, hword⟩ := fields_of_decodeResponse h
  calc r.encode = a.extractLsb' 32 2 ++ a.extractLsb' 0 32 := by rw [Response.encode, hcode, hword]
    _ = a := BitVec.extractLsb'_append_extractLsb'

/-! ## What RESP holds (R97) -/

theorem StepEnded.respFormed {s t : State} (h : StepEnded s t) (hresp : RespFormed s.resp) : RespFormed t.resp := by
  cases h with
  | completed hframe _ _ =>
    obtain ⟨-, -, -, hsame, -⟩ := onlyDatapathChanged_frame hframe
    rwa [hsame]
  | raised _ => exact respFormed_ofResponse (by simp)

theorem Served.respFormed {a t : State} (h : Served a t) (hresp : RespFormed a.resp) : RespFormed t.resp := by
  cases h with
  | answered hr => exact respFormed_ofResponse hr
  | started _ _ => exact hresp
  | expanded _ _ _ hr => exact respFormed_ofResponse hr

theorem finishMiss_respFormed (s : State) : RespFormed s.finishMiss.resp := by
  obtain ⟨r, h, hr⟩ := answer_response (s.store s.builtSchedule) s.builtSchedule
  rw [State.finishMiss, h]
  exact respFormed_ofResponse hr

theorem kseMove_respFormed {s t : State} (hresp : RespFormed s.resp) (h : kseMove s = .next t) :
    RespFormed t.resp := by
  rcases kseMove_cases s with ⟨words, -, hk⟩ | ⟨-, -, hk⟩ | ⟨-, -, hk⟩ | ⟨-, -, q, rest, hk⟩ <;> rw [hk] at h
  · rcases programMove_next h with hstep | rfl
    · exact hstep.respFormed hresp
    · exact hresp
  · rcases sequencerMove_next h with hstep | rfl
    · exact hstep.respFormed hresp
    · exact finishMiss_respFormed s
  · cases h
    exact hresp
  · obtain ⟨u, hu, hcase⟩ := serveRequest_cases q { s with port := rest }
    cases hu.symm.trans h
    rcases hcase with ⟨q', rfl⟩ | ⟨-, keylen, slots, index, hs⟩
    · exact hresp
    · exact hs.respFormed hresp

/-- Settles O51: KSE writes RESP by a response other than InvalidWordLength or not at all; after HOST's taking and after
its reset VALID is 0. -/
theorem responsesStayWellFormed : Obligations.ResponsesStayWellFormed := by
  unfold Obligations.ResponsesStayWellFormed
  intro s t hresp h
  rcases step_cases s with ⟨moves, hs⟩ | ⟨moves, q, hs⟩ | ⟨moves, -, hs⟩ | ⟨moves, -, hs⟩
  · exact kseMove_respFormed (s := { s with host := moves }) hresp (hs.symm.trans h)
  · cases hs.symm.trans h
    exact hresp
  · cases hs.symm.trans h
    exact fun hvalid => by cases hvalid
  · cases hs.symm.trans h
    exact fun hvalid => by cases hvalid

/-! ## The step program `EXPAND nk` (R105, R107; log entry 4) -/

/-- The bytes of a legal key are its NK words (R120). -/
theorem four_mul_nk {n : Nat} (hlegal : (classify n).var ≠ 3#2) : 4 * (classify n).nk = n := by
  rcases classify_cases n with ⟨rfl, -⟩ | ⟨rfl, -⟩ | ⟨rfl, -⟩ | ⟨-, -, -, h⟩
  · rfl
  · rfl
  · rfl
  · rw [h] at hlegal
    exact absurd rfl hlegal

/-- On a legal length the word of `EXPAND nk` at a position is the one the selector emits there (R107). -/
theorem expandProgram_getElem? {n i : Nat} (hlegal : (classify n).var ≠ 3#2) (hi : i < (classify n).nw) :
    (expandProgram (classify n).nk)[i]? = some (stepSel (classify n).nk i) := by
  simp only [expandProgram, four_mul_nk hlegal, List.getElem?_map, List.getElem?_range hi, Option.map_some]

/-- What the loader latches and loads, before it starts the expansion (log entry 4). -/
def State.withLatchedProgram (s : State) (key : List Byte) (words : List StepWord) : State :=
  { s.accept (BitVec.ofNat 8 key.length) key 0#8 with busy := false, program := some words }

theorem withProgram_eq_startExpansion (s : State) (key : List Byte) (words : List StepWord) :
    s.withProgram key words = (s.withLatchedProgram key words).startExpansion := rfl

/-- The loader latches a legal key whole, and the selector's outputs are the key's (R22, R23, R25). -/
theorem withLatchedProgram_key (s : State) {key : List Byte} (words : List StepWord)
    (hlegal : (classify key.length).var ≠ 3#2) :
    (s.withLatchedProgram key words).variant = classify key.length ∧
      (s.withLatchedProgram key words).keyValue = key := by
  have hlen : key.length ≤ 32 := by
    obtain ⟨hnk, -⟩ := classify_bounds key.length
    have hkey := four_mul_nk hlegal
    omega
  have hbyte : (s.withLatchedProgram key words).keylen.toNat = key.length := by
    rw [State.withLatchedProgram, accept_keylen, BitVec.toNat_ofNat, Nat.mod_eq_of_lt (by omega)]
  refine ⟨congrArg classify hbyte, List.ext_getElem ?_ fun k hk hk' => ?_⟩
  · rw [State.keyValue, hbyte, List.length_take, Vector.length_toList, Nat.min_eq_left hlen]
  · simp [State.keyValue, State.withLatchedProgram, hk']

section Program

variable {sched : List Word} {b : State} (hhost : b.host = []) (hprog : b.program = some (expandProgram b.nk))
  (hlegal : b.var ≠ 3#2) (hsched : expand b.sboxRom b.keyValue = .ok sched)

include hhost hprog hlegal hsched

/-- One step of the loaded program is one step of an expansion: the program's word is the selector's (R105). -/
theorem step_of_expandProgram {i : Nat} {t : State} (hp : Progress sched b i t) (hi : i < b.nw) :
    ∃ t', step t = .next t' ∧ Progress sched b (i + 1) t' := by
  obtain ⟨t', -, hexec, hp'⟩ := progress_step hlegal hsched hi hp
  obtain ⟨⟨-, hhost', -, -, hprog', -⟩, -⟩ := onlyDatapathChanged_frame hp.frame
  obtain ⟨-, hnw, -⟩ := onlyDatapathChanged_selectors hp.frame
  have hword : (expandProgram b.nk)[t.pcNat]? = some (stepSel b.nk i) := by
    rw [hp.pc]
    exact expandProgram_getElem? hlegal hi
  have hdecode : decodeStep (stepSel b.nk i) = .ok (stepInstr b.nk i) := decodeStep_stepSel b.keylen.toNat i hi
  have hlt : t.pcNat < t.nw := by rw [hp.pc, hnw]; exact hi
  have hstep := step_of_program_word (hhost'.trans hhost) (hprog'.trans hprog) hlt hword hdecode
  exact ⟨t', hstep.trans hexec, hp'⟩

/-- The loaded program runs to its end at pc = NW (R202, R222). -/
theorem run_of_expandProgram : ∀ (n i : Nat) (t : State), Progress sched b i t → i + n = b.nw →
    ∃ t', Host.Core.run Sys2Proof.core n t = .next t' ∧ Progress sched b b.nw t' := by
  intro n
  induction n with
  | zero =>
    intro i t hp hn
    exact ⟨t, rfl, by rwa [← hn]⟩
  | succ n ih =>
    intro i t hp hn
    obtain ⟨u, hstep, hp'⟩ := step_of_expandProgram hhost hprog hlegal hsched hp (by omega)
    obtain ⟨t', hrun, hend⟩ := ih (i + 1) u hp' (by omega)
    exact ⟨t', (run_succ hstep).trans hrun, hend⟩

end Program

/-- Settles O55: the loader starts an expansion, and each of the program's NW words is the selector's, so the schedule
is built as an expansion builds it. -/
theorem expandProgramBuildsTheSchedule : Obligations.ExpandProgramBuildsTheSchedule := by
  unfold Obligations.ExpandProgramBuildsTheSchedule
  intro s key sched hlegal hhost hsched
  obtain ⟨hvariant, hkey⟩ := withLatchedProgram_key s (expandProgram (classify key.length).nk) hlegal
  rw [withProgram_eq_startExpansion]
  generalize hb : s.withLatchedProgram key (expandProgram (classify key.length).nk) = b at hvariant hkey ⊢
  have hhost' : b.host = [] := by rw [← hb]; exact hhost
  have hprog : b.program = some (expandProgram b.nk) := by rw [State.nk, hvariant, ← hb]; rfl
  have hlegal' : b.var ≠ 3#2 := by rwa [State.var, hvariant]
  have hsched' : expand b.sboxRom b.keyValue = .ok sched := by rw [hkey, ← hb]; exact hsched
  have hnw : b.nw = (classify key.length).nw := congrArg Variant.nw hvariant
  obtain ⟨t, hrun, hp⟩ := run_of_expandProgram hhost' hprog hlegal' hsched' b.nw 0 _ (progress_start b sched)
    (Nat.zero_add _)
  obtain ⟨-, -, hcache, hresp, -⟩ := onlyDatapathChanged_frame hp.frame
  have hnw60 := nw_le b
  rw [hnw] at hrun hp hnw60
  refine ⟨t, hrun, hp.pc, by rw [hcache, ← hb]; rfl, by rw [hresp, ← hb]; rfl, fun i hi => ⟨hp.built i hi, ?_⟩⟩
  rw [hp.marks i (by omega), decide_eq_true hi]

end Sys2Proof.Machine

/-! # The variant selector (spec/40_variant_select.md) -/

namespace Sys2Proof.Machine

/-- Settles O24: the three legal lengths are rows of the table, and any other length falls through to its last row. -/
theorem classificationTable : Obligations.ClassificationTable := by
  unfold Obligations.ClassificationTable
  refine ⟨rfl, rfl, rfl, fun n h16 h24 h32 => ?_⟩
  rcases classify_cases n with ⟨h, -⟩ | ⟨h, -⟩ | ⟨h, -⟩ | ⟨-, -, -, hrow⟩
  · exact absurd h h16
  · exact absurd h h24
  · exact absurd h h32
  · exact hrow

/-- Settles O25: the selector's word decodes to `stepInstr`, whose branches are the four cases; the length is 4 * NK, so
NK = 8 names the 32-byte key. -/
theorem selectorEmitsLegalSteps : Obligations.SelectorEmitsLegalSteps := by
  unfold Obligations.SelectorEmitsLegalSteps
  intro keylen hlegal i hi
  have hindex := xg_index_lt keylen i hi
  have hkey := four_mul_nk hlegal
  rw [decodeStep_stepSel keylen i hi]
  generalize (classify keylen).nk = nk at hindex hkey ⊢
  unfold stepInstr
  split
  case isTrue hload => exact .inl ⟨hload, rfl⟩
  case isFalse hchain =>
    refine .inr ⟨Nat.le_of_not_lt hchain, ?_⟩
    split
    case isTrue hmult => exact .inr (.inr ⟨hmult, Nat.le_of_lt_succ hindex, rfl⟩)
    case isFalse =>
      split
      case isTrue hmiddle =>
        obtain ⟨rfl, hrest⟩ := hmiddle
        exact .inr (.inl ⟨rfl, hkey.symm, hrest⟩)
      case isFalse => exact .inl rfl

end Sys2Proof.Machine

/-! # The word-rotation unit (spec/41_rotword.md)

Read as a number, a Word is rotated by one append; read as its four bytes, it is rotated by naming the bytes in another
order, which leaves a unit that acts on each byte alone unaffected. -/

namespace Sys2Proof.Machine

/-! ## The rotation of the 32-bit value (R141) -/

/-- R141: the three low bytes stand side by side in `v[23:0]`. -/
theorem rotWord_eq_append (v : Word) : rotWord v = v.extractLsb' 0 24 ++ v.extractLsb' 24 8 := by
  have h12 : byteAt v 1 ++ byteAt v 2 = v.extractLsb' 8 16 :=
    BitVec.extractLsb'_append_extractLsb'_eq_extractLsb' rfl
  have h123 : v.extractLsb' 8 16 ++ byteAt v 3 = v.extractLsb' 0 24 :=
    BitVec.extractLsb'_append_extractLsb'_eq_extractLsb' rfl
  rw [rotWord, word32, h12, h123]
  rfl

/-- Settles O17: the low 24 bits are moved up by 8, and the high 8 bits fill the room they leave. -/
theorem rotWordRotatesLeftByEight : Obligations.RotWordRotatesLeftByEight := by
  unfold Obligations.RotWordRotatesLeftByEight
  refine fun v => ⟨?_, rotWord_eq_append v⟩
  rw [rotWord_eq_append, BitVec.toNat_append, ← Nat.shiftLeft_add_eq_or_of_lt (v.extractLsb' 24 8).isLt,
    BitVec.extractLsb'_toNat, BitVec.extractLsb'_toNat, Nat.shiftLeft_eq, Nat.shiftRight_eq_div_pow,
    Nat.shiftRight_eq_div_pow]
  have hv := v.isLt
  omega

/-! ## The rotation of the four bytes (R140, R143) -/

/-- Every Word is made of four bytes (R12). -/
theorem exists_word32 (w : Word) : ∃ b0 b1 b2 b3, w = word32 b0 b1 b2 b3 := ⟨_, _, _, _, (word32_byteAt w).symm⟩

@[simp] theorem rotWord_word32 (b0 b1 b2 b3 : Byte) : rotWord (word32 b0 b1 b2 b3) = word32 b1 b2 b3 b0 := by
  simp [rotWord]

@[simp] theorem subWord_word32 (table : SboxTable) (b0 b1 b2 b3 : Byte) : subWord table (word32 b0 b1 b2 b3) =
    word32 (sbox table b0) (sbox table b1) (sbox table b2) (sbox table b3) := by
  simp [subWord]

@[simp] theorem xorW_word32 (a0 a1 a2 a3 b0 b1 b2 b3 : Byte) : xorW (word32 a0 a1 a2 a3) (word32 b0 b1 b2 b3) =
    word32 (a0 ^^^ b0) (a1 ^^^ b1) (a2 ^^^ b2) (a3 ^^^ b3) := by
  simp [xorW]

theorem rotWord_four_times (w : Word) : rotWord (rotWord (rotWord (rotWord w))) = w := by
  obtain ⟨b0, b1, b2, b3, rfl⟩ := exists_word32 w
  simp only [rotWord_word32]

theorem rotWord_bijective : Function.Bijective rotWord :=
  Function.bijective_iff_has_inverse.2
    ⟨fun w => rotWord (rotWord (rotWord w)), rotWord_four_times, rotWord_four_times⟩

theorem subWord_rotWord (table : SboxTable) (w : Word) : subWord table (rotWord w) = rotWord (subWord table w) := by
  obtain ⟨b0, b1, b2, b3, rfl⟩ := exists_word32 w
  simp only [rotWord_word32, subWord_word32]

theorem rotWord_xorW (a b : Word) : rotWord (xorW a b) = xorW (rotWord a) (rotWord b) := by
  obtain ⟨a0, a1, a2, a3, rfl⟩ := exists_word32 a
  obtain ⟨b0, b1, b2, b3, rfl⟩ := exists_word32 b
  simp only [rotWord_word32, xorW_word32]

/-- Settles O18: rotating three times more undoes a rotation, which gives the bijection; the other laws are read off the bytes. -/
theorem rotWordLaws : Obligations.RotWordLaws := by
  unfold Obligations.RotWordLaws
  exact ⟨rotWord_bijective, rotWord_four_times, fun b0 b1 b2 b3 => rotWord_word32 b3 b0 b1 b2, subWord_rotWord,
    rotWord_xorW⟩

end Sys2Proof.Machine

/-! # The S-box lookup pipeline (spec/42_subword_sbox.md)

`SubWord` acts on each of the four bytes alone, so that two tables substitute a Word alike exactly when they agree at its
bytes. Of a schedule only the substitutions depend on the table, which carries this over to the whole of `Expand`. -/

namespace Sys2Proof.Machine

/-! ## The table SBOXROM holds at reset (R153, R154, R156) -/

/-- R153: 256 entries without a repetition are all the bytes. -/
theorem sbox_bijective_of_nodup {table : SboxTable} (h : table.toList.Nodup) : Function.Bijective (sbox table) := by
  refine Finite.injective_iff_bijective.1 fun a b hab => BitVec.eq_of_toNat_eq ?_
  have hsize (c : Byte) : c.toNat < table.toList.length := by simpa using c.isLt
  exact (h.getElem_inj_iff (hi := hsize a) (hj := hsize b)).1 (by simpa only [sbox, Vector.getElem_toList] using hab)

/-- Settles O20: no byte stands twice in the table of R156; the eight settled entries are read off. -/
theorem sboxIsAPermutation : Obligations.SboxIsAPermutation := by
  unfold Obligations.SboxIsAPermutation
  exact ⟨rfl, sbox_bijective_of_nodup (by decide +kernel), by unfold SettledEntries; decide +kernel⟩

/-! ## The laws of `SubWord` (R159) -/

@[simp] theorem word32_inj {a0 a1 a2 a3 b0 b1 b2 b3 : Byte} :
    word32 a0 a1 a2 a3 = word32 b0 b1 b2 b3 ↔ a0 = b0 ∧ a1 = b1 ∧ a2 = b2 ∧ a3 = b3 := by
  refine ⟨fun h => ⟨?_, ?_, ?_, ?_⟩, fun ⟨h0, h1, h2, h3⟩ => by rw [h0, h1, h2, h3]⟩
  · simpa using congrArg (byteAt · 0) h
  · simpa using congrArg (byteAt · 1) h
  · simpa using congrArg (byteAt · 2) h
  · simpa using congrArg (byteAt · 3) h

theorem subWord_bijective {table : SboxTable} (h : Function.Bijective (sbox table)) :
    Function.Bijective (subWord table) := by
  constructor
  · intro v w hvw
    obtain ⟨v0, v1, v2, v3, rfl⟩ := exists_word32 v
    obtain ⟨w0, w1, w2, w3, rfl⟩ := exists_word32 w
    simpa only [subWord_word32, word32_inj, h.injective.eq_iff] using hvw
  · intro w
    obtain ⟨w0, w1, w2, w3, rfl⟩ := exists_word32 w
    obtain ⟨v0, rfl⟩ := h.surjective w0
    obtain ⟨v1, rfl⟩ := h.surjective w1
    obtain ⟨v2, rfl⟩ := h.surjective w2
    obtain ⟨v3, rfl⟩ := h.surjective w3
    exact ⟨word32 v0 v1 v2 v3, subWord_word32 table v0 v1 v2 v3⟩

/-- R159: a Word combined with itself is zero, which SBOX does not keep at zero. -/
theorem subWord_xorW_ne {table : SboxTable} (h : sbox table 0x00#8 = 0x63#8) (b0 b1 b2 b3 : Byte) :
    subWord table (xorW (word32 b0 b1 b2 b3) (word32 b0 b1 b2 b3)) ≠
      xorW (subWord table (word32 b0 b1 b2 b3)) (subWord table (word32 b0 b1 b2 b3)) := by
  simp [h]

/-- Settles O19: every law is read off the four bytes; two equal Words refute the distribution over `XorW`. -/
theorem subWordLaws : Obligations.SubWordLaws := by
  unfold Obligations.SubWordLaws
  refine ⟨fun _ => subWord_bijective, subWord_rotWord, fun table b0 b1 b2 b3 => ?_, fun table h => ?_⟩
  · rw [rotWord_word32, subWord_word32]
  · exact ⟨_, _, subWord_xorW_ne h 0 0 0 0⟩

/-! ## One word of the schedule over two tables (R160, R220) -/

section TwoTables

variable {table other : SboxTable}

theorem subWord_eq_iff {w : Word} :
    subWord other w = subWord table w ↔ ∀ b ∈ bytes4 w, sbox other b = sbox table b := by
  simp [subWord, bytes4]

theorem subWord_rotWord_eq_iff {w : Word} :
    subWord other (rotWord w) = subWord table (rotWord w) ↔ ∀ b ∈ bytes4 w, sbox other b = sbox table b := by
  rw [subWord_rotWord, subWord_rotWord, rotWord_bijective.injective.eq_iff, subWord_eq_iff]

@[simp] theorem xorW_left_inj {a b c : Word} : xorW a c = xorW b c ↔ a = b := by
  obtain ⟨a0, a1, a2, a3, rfl⟩ := exists_word32 a
  obtain ⟨b0, b1, b2, b3, rfl⟩ := exists_word32 b
  obtain ⟨c0, c1, c2, c3, rfl⟩ := exists_word32 c
  simp

@[simp] theorem xorW_right_inj {a b c : Word} : xorW a b = xorW a c ↔ b = c := by
  obtain ⟨a0, a1, a2, a3, rfl⟩ := exists_word32 a
  obtain ⟨b0, b1, b2, b3, rfl⟩ := exists_word32 b
  obtain ⟨c0, c1, c2, c3, rfl⟩ := exists_word32 c
  simp

/-- R160: the table enters the special branches of R220 at the bytes looked up and nowhere else. -/
theorem transformTemp_eq_iff {nk i : Nat} {temp : Word} (hrcon : i / nk - 1 < 10) :
    transformTemp other nk i temp = transformTemp table nk i temp ↔
      ∀ b ∈ lookedUp nk i temp, sbox other b = sbox table b := by
  unfold transformTemp lookedUp
  by_cases hmult : i % nk = 0
  · obtain ⟨c, hc⟩ := rcon_ok_of_lt hrcon
    simp [hmult, hc, subWord_rotWord_eq_iff]
  by_cases hmiddle : nk = 8 ∧ i % nk = 4
  · simp only [if_neg hmult, if_pos hmiddle, if_pos (Or.inr hmiddle), Except.ok.injEq, subWord_eq_iff]
  · simp [hmult, hmiddle]

theorem nextWord_eq_iff {n i : Nat} {w : List Word} (hi : i < (classify n).nw) :
    nextWord other (classify n).nk i w = nextWord table (classify n).nk i w ↔
      ∀ b ∈ lookedUp (classify n).nk i (w.getD (i - 1) 0), sbox other b = sbox table b := by
  rw [← transformTemp_eq_iff (xg_index_lt n i hi)]
  obtain ⟨u, hu⟩ := transformTemp_ok other n i hi (w.getD (i - 1) 0)
  obtain ⟨v, hv⟩ := transformTemp_ok table n i hi (w.getD (i - 1) 0)
  simp only [nextWord, hu, hv, Except.ok.injEq, xorW_right_inj]

/-! ## The whole schedule over two tables -/

/-- R220: word `i` reads no word but the one before it and the one NK before it. -/
theorem nextWord_congr {nk i : Nat} {v w : List Word} (hprev : v[i - 1]? = w[i - 1]?) (hback : v[i - nk]? = w[i - nk]?) :
    nextWord table nk i v = nextWord table nk i w := by
  simp only [nextWord, List.getD_eq_getElem?_getD, hprev, hback]

variable {key : List Byte} {sched : List Word}

/-- Every word of a schedule is fixed by the words before it (R220), so the words of two schedules of one key are equal one
after the other. -/
theorem expand_eq_of_nextWord_eq (hlegal : (classify key.length).var ≠ 3#2) (h : expand table key = .ok sched)
    (hnext : ∀ i, (classify key.length).nk ≤ i → i < (classify key.length).nw →
      nextWord other (classify key.length).nk i sched = nextWord table (classify key.length).nk i sched) :
    expand other key = .ok sched := by
  obtain ⟨out, hout⟩ := expand_ok other key
  obtain ⟨hlen, hkey, hrec⟩ := expand_spec hlegal h
  obtain ⟨hlen', hkey', hrec'⟩ := expand_spec hlegal hout
  have hpos := four_le_nk hlegal
  have hsame : ∀ i : Nat, out[i]? = sched[i]? := by
    intro i
    induction i using Nat.strong_induction_on with
    | _ i ih =>
      rcases Nat.lt_or_ge i (classify key.length).nk with hlt | hge
      · rw [hkey i hlt, hkey' i hlt]
      rcases Nat.lt_or_ge i (classify key.length).nw with hlt | hend
      · obtain ⟨v, hv, hi⟩ := hrec i hge hlt
        obtain ⟨v', hv', hi'⟩ := hrec' i hge hlt
        have hvv : nextWord other (classify key.length).nk i out = .ok v := by
          rw [nextWord_congr (ih _ (by omega)) (ih _ (by omega)), hnext i hge hlt, hv]
        rw [hi, hi', Except.ok.inj (hv'.symm.trans hvv)]
      · rw [List.getElem?_eq_none (by omega), List.getElem?_eq_none (by omega)]
  rw [hout, List.ext_getElem? hsame]

theorem expand_eq_iff_nextWord_eq (hlegal : (classify key.length).var ≠ 3#2) (h : expand table key = .ok sched) :
    expand other key = .ok sched ↔ ∀ i, (classify key.length).nk ≤ i → i < (classify key.length).nw →
      nextWord other (classify key.length).nk i sched = nextWord table (classify key.length).nk i sched := by
  refine ⟨fun hother i hge hlt => ?_, expand_eq_of_nextWord_eq hlegal h⟩
  obtain ⟨-, -, hrec⟩ := expand_spec hlegal h
  obtain ⟨-, -, hrec'⟩ := expand_spec hlegal hother
  obtain ⟨v, hv, hi⟩ := hrec i hge hlt
  obtain ⟨v', hv', hi'⟩ := hrec' i hge hlt
  rw [hv, hv', Option.some.inj (hi'.symm.trans hi)]

end TwoTables

/-- Settles O37: the two schedules agree when their words do, each made by the recurrence of R220 from the same words. -/
theorem scheduleIsFixedByTheEntriesLookedUp : Obligations.ScheduleIsFixedByTheEntriesLookedUp := by
  unfold Obligations.ScheduleIsFixedByTheEntriesLookedUp
  intro table other key sched hlegal h
  obtain ⟨hlen, -, -⟩ := expand_spec hlegal h
  rw [expand_eq_iff_nextWord_eq hlegal h]
  refine forall_congr' fun i => ?_
  constructor
  · intro hnext prev hge hlt hprev
    simpa [List.getD_eq_getElem?_getD, hprev] using (nextWord_eq_iff hlt).1 (hnext hge hlt)
  · intro hbytes hge hlt
    have hprev : sched[i - 1]? = some (sched.getD (i - 1) 0) := by
      rw [List.getD_eq_getElem _ _ (by omega), List.getElem?_eq_getElem]
    exact (nextWord_eq_iff hlt).2 (hbytes _ hge hlt hprev)

end Sys2Proof.Machine

/-! # The round-constant generator (spec/43_rcon.md)

Each constant is the doubling of the one before it, and the generator register is doubled once per `XG`: at an `XG` of the
selector the count of doublings is the index the word carries. -/

namespace Sys2Proof.Machine

/-! ## The table and its doublings (R170, R171, R176) -/

/-- R176: `RC(j+1) = Xtime(RC(j))`. -/
theorem rcRom_succ : ∀ j, j < 9 → rcRom[j + 1]? = rcRom[j]?.map xtime := by
  decide

theorem rcRom_eq_xtime_iterate {j : Nat} (hj : j < 10) : rcRom[j]? = some (xtime^[j] 0x01#8) := by
  induction j with
  | zero => rfl
  | succ j ih => rw [rcRom_succ j (by omega), ih (by omega), Function.iterate_succ_apply', Option.map_some]

/-- A byte in the high lane above three zero bytes (R173). -/
theorem word32_zero_tail (c : Byte) : word32 c 0x00#8 0x00#8 0x00#8 = c ++ 0x000000#24 := by
  rw [word32, BitVec.append_assoc, BitVec.append_assoc]
  rfl

theorem rcon_of_rcRom {j : Nat} {c : Byte} (hc : rcRom[j]? = some c) : rcon j = .ok (c ++ 0x000000#24) := by
  rw [← word32_zero_tail, rcon, hc]

/-- Settles O23: the entries are iterated doublings by R176, and `Rcon` places one in the high byte or raises. -/
theorem roundConstantsAreDoublings : Obligations.RoundConstantsAreDoublings := by
  unfold Obligations.RoundConstantsAreDoublings
  refine ⟨rfl, fun j hj => ?_, fun j => rcon_error_of_ge⟩
  have hc := rcRom_eq_xtime_iterate hj
  exact ⟨xtime^[j] 0x01#8, hc, rfl, rcon_of_rcRom hc⟩

/-! ## The raise of `XG` (R172, R214) -/

theorem rconStage_error_of_ge {j : Nat} (hj : 10 ≤ j) (t : Word) : rconStage true j t = .error .indexOutOfRange := by
  simp only [rconStage, rcon_error_of_ge hj, if_true]

/-- Settles O30: the constant raises before `W[pc-NK]` is read, and the abort leaves all but TEMP, RESP, BUSY and the
program. -/
theorem xgConstantOutOfRangeRaises : Obligations.XgConstantOutOfRangeRaises := by
  unfold Obligations.XgConstantOutOfRangeRaises
  intro s prev j hpos hmark hprev hj
  have hread : s.readW (s.pcNat - 1) = some prev := readW_eq_some.2 ⟨hmark, hprev⟩
  have hraise := chainStep_error (rot := true) (sub := true) hpos hread (rconStage_error_of_ge hj _)
  exact ⟨_, (exec_xg j s).trans hraise, rfl, rfl, rfl, rfl, rfl⟩

/-! ## The generator register at an `XG` (R177, R178) -/

/-- R125: the instruction at a position is `XG` only at a multiple of NK, and the index is the next constant's. -/
theorem eq_of_stepInstr_eq_xg {nk i j : Nat} (h : stepInstr nk i = .xg j) : nk ≤ i ∧ i % nk = 0 ∧ i / nk - 1 = j := by
  unfold stepInstr at h
  split at h
  case isTrue => cases h
  case isFalse hchain =>
    split at h
    case isTrue hmult => exact ⟨Nat.le_of_not_lt hchain, hmult, Instr.xg.inj h⟩
    case isFalse => split at h <;> cases h

/-- R129: the `XG` steps before one of them are counted by its own index. -/
theorem xgStepsBefore_of_multiple {nk i : Nat} (h4 : 4 ≤ nk) (hi : nk ≤ i) (hmult : i % nk = 0) :
    xgStepsBefore nk i = i / nk - 1 := by
  have hsucc : i / nk = xgStepsBefore nk i + 1 := (xgStepsBefore_succ h4 hi).trans (if_pos hmult)
  omega

/-- Settles O52: RCREG has been doubled as often as the index of the `XG` at pc says, and that many doublings of 0x01 are
the table's entry. -/
theorem generatorAgreesWithTheTable : Obligations.GeneratorAgreesWithTheTable := by
  unfold Obligations.GeneratorAgreesWithTheTable
  intro s j hinv hbusy hgen hlt hdecode
  have hu := hinv.running hbusy
  have hinstr : stepInstr s.nk s.pcNat = .xg j :=
    Except.ok.inj ((decodeStep_stepSel s.keylen.toNat s.pcNat hlt).symm.trans hdecode)
  obtain ⟨hchain, hmult, rfl⟩ := eq_of_stepInstr_eq_xg hinstr
  have hnk : 4 ≤ s.nk := four_le_nk hu.legalLength
  rw [hu.generator hgen, xgStepsBefore_of_multiple hnk hchain hmult]
  exact rcRom_eq_xtime_iterate (xg_index_lt s.keylen.toNat s.pcNat hlt)

end Sys2Proof.Machine

/-! # The XOR combiner (spec/44_xor.md)

Exclusive or acts on each bit alone, so that taking a byte of a Word commutes with it; the four bytes which `XorW` joins
are therefore those of the 32-bit exclusive or. -/

namespace Sys2Proof.Machine

@[simp] theorem byteAt_xor (a b : Word) (k : Nat) : byteAt (a ^^^ b) k = byteAt a k ^^^ byteAt b k :=
  BitVec.extractLsb'_xor

theorem xorW_eq_xor (a b : Word) : xorW a b = a ^^^ b := by
  simp only [xorW, ← byteAt_xor, word32_byteAt]

/-- Settles O22: `XorW` is the 32-bit exclusive or, and taking a byte commutes with that. -/
theorem xorWIsBitwise : Obligations.XorWIsBitwise := by
  unfold Obligations.XorWIsBitwise
  refine fun a b => ⟨xorW_eq_xor a b, fun k _ => ?_⟩
  rw [xorW_eq_xor, byteAt_xor]

end Sys2Proof.Machine

/-! # The step instructions and the schedule they build (spec/45_expand_steps.md)

`XP`, `XS` and `XG` are one chain with other units enabled, whose effect is stated once for all of them. A later word of
`Expand` is read off R220's recurrence, one lemma per branch. The schedule in W is what `Progress` says at the end of an
expansion. -/

namespace Sys2Proof.Machine

/-! ## `KLD` (R210) -/

theorem key_getElem?_eq_keyByte (s : State) {k : Nat} (hk : k < 32) : s.key[k]? = some (s.keyByte k) := by
  rw [State.keyByte, Vector.getElem?_eq_getElem hk, Option.getD_some]

/-- Settles O26: a key load at a legal position writes the four latched bytes from `4 * pc`, which lie inside KEY because
NK is at most 8. -/
theorem kldLoadsTheKeyWord : Obligations.KldLoadsTheKeyWord := by
  unfold Obligations.KldLoadsTheKeyWord
  refine ⟨decodeOfEncodeIsTheInstruction .kld rfl, fun s hpos => ?_, fun s hout => ?_⟩
  · have hnk := nk_le s
    rcases loadKeyWord_cases s with ⟨-, hload⟩ | ⟨hout, -⟩
    · have hbyte {k : Nat} (hk : k < 4) := key_getElem?_eq_keyByte s (k := 4 * s.pcNat + k) (by omega)
      exact ⟨_, _, _, _, _, (exec_kld s).trans hload, hbyte (k := 0) (by decide), hbyte (by decide), hbyte (by decide),
        hbyte (by decide), writeW_wrote s (by omega) _, advance_pcNat (show s.pcNat < 63 by omega), rfl, rfl, rfl⟩
    · omega
  · obtain ⟨hrefused, -⟩ := illegalPositionRefused s 0
    exact hrefused hout

/-! ## The chain (R100, R211 to R213) -/

/-- A chain step with both sources written completes unless its constant is out of range: TEMP is what the enabled units
make of `W[pc-1]`, and `W[pc]` is that combined with `W[pc-NK]`. -/
theorem chainStep_completes {rot sub rce : Bool} {j : Nat} {s : State} {back prev temp : Word} (hpos : ChainLegal s)
    (hmarks : SourcesWritten s) (hback : s.w[s.pcNat - s.nk]? = some back) (hprev : s.w[s.pcNat - 1]? = some prev)
    (hunits : rconStage rce j (subStage s.sboxRom sub (rotStage rot prev)) = .ok temp) :
    ∃ t, chainStep rot sub rce j s = .next t ∧ WroteWord s t s.pcNat (back ^^^ temp) ∧ t.temp = temp ∧
      t.pcNat = s.pcNat + 1 ∧ t.rcreg = (if rce then s.stepRcreg else s).rcreg ∧ OnlyDatapathChanged s t := by
  obtain ⟨hmark1, hmarkNk⟩ := hmarks
  obtain ⟨hge, hlt⟩ := hpos
  have hnw := nw_le s
  have hdone := chainStep_done ⟨hge, hlt⟩ (readW_eq_some.2 ⟨hmark1, hprev⟩) hunits (readW_eq_some.2 ⟨hmarkNk, hback⟩)
  rw [xorW_eq_xor] at hdone
  have hwrote := writeW_wrote (s.setTemp temp) (k := s.pcNat) (by omega) (back ^^^ temp)
  have hpc : ((s.setTemp temp).writeW s.pcNat (back ^^^ temp)).advance.pcNat = s.pcNat + 1 :=
    advance_pcNat (show s.pcNat < 63 by omega)
  cases rce <;> exact ⟨_, hdone, hwrote, rfl, hpc, rfl, rfl⟩

/-- Settles O27: the chain with no unit enabled takes `W[pc-1]` as it is. -/
theorem xpCombinesTheSources : Obligations.XpCombinesTheSources := by
  unfold Obligations.XpCombinesTheSources
  refine ⟨decodeOfEncodeIsTheInstruction .xp rfl, fun s back prev hpos hmarks hback hprev => ?_, fun s hout => ?_⟩
  · exact chainStep_completes (rot := false) (sub := false) (rce := false) (j := 0) hpos hmarks hback hprev rfl
  · obtain ⟨-, hrefused⟩ := illegalPositionRefused s 0
    obtain ⟨hxp, -⟩ := hrefused fun ⟨hge, _⟩ => by omega
    exact hxp

/-- Settles O28: the chain with SUB alone, over any NK. -/
theorem xsSubstitutes : Obligations.XsSubstitutes := by
  unfold Obligations.XsSubstitutes
  refine ⟨decodeOfEncodeIsTheInstruction .xs rfl, fun s back prev hpos hmarks hback hprev => ?_⟩
  exact chainStep_completes (rot := false) (sub := true) (rce := false) (j := 0) hpos hmarks hback hprev rfl

theorem rconStage_of_rcRom {j : Nat} {c : Byte} (hc : rcRom[j]? = some c) (t : Word) :
    rconStage true j t = .ok (t ^^^ (c ++ 0x000000#24)) := by
  simp only [rconStage, if_true, rcon_of_rcRom hc, xorW_eq_xor]

/-- Settles O29: the chain with every unit enabled, which completes when the table has a constant `j` and raises when it
has none. -/
theorem xgStartsTheRound : Obligations.XgStartsTheRound := by
  unfold Obligations.XgStartsTheRound
  refine ⟨fun j hj => decodeOfEncodeIsTheInstruction (.xg j) (decide_eq_true hj), ?_, ?_⟩
  · intro s back prev j c hpos hmarks hback hprev hc
    obtain ⟨t, hnext, hwrote, htemp, hpc, hrcreg, hframe⟩ :=
      chainStep_completes (rot := true) (sub := true) hpos hmarks hback hprev (rconStage_of_rcRom hc _)
    refine ⟨t, hnext, hwrote, htemp, hpc, fun hgen => ?_, fun htable => ?_, hframe⟩
    · simp [hrcreg, hgen]
    · simp [hrcreg, htable]
  · intro s j hpos ⟨hmark, _⟩ hj
    obtain ⟨prev, hread⟩ := readW_isSome_of_marked hmark
    obtain ⟨-, hprev⟩ := readW_eq_some.1 hread
    obtain ⟨t, hnext, hresp, -⟩ := xgConstantOutOfRangeRaises s prev j hpos hmark hprev hj
    exact ⟨t, hnext, hresp⟩

/-! ## The recurrence of `Expand` (R220) -/

section Recurrence

variable {table : SboxTable} {nk i : Nat} {w : List Word} {back prev : Word}
  (hback : w[i - nk]? = some back) (hprev : w[i - 1]? = some prev)

include hback hprev

theorem nextWord_of_multiple {c : Byte} (hmult : i % nk = 0) (hc : rcRom[i / nk - 1]? = some c) :
    nextWord table nk i w = .ok (back ^^^ (subWord table (rotWord prev) ^^^ (c ++ 0x000000#24))) := by
  simp only [nextWord, transformTemp, if_pos hmult, rcon_of_rcRom hc, List.getD_eq_getElem?_getD, hback, hprev,
    Option.getD_some, xorW_eq_xor]

theorem nextWord_of_middle (hnk : nk = 8) (hmiddle : i % nk = 4) :
    nextWord table nk i w = .ok (back ^^^ subWord table prev) := by
  have hmult : i % nk ≠ 0 := by omega
  simp only [nextWord, transformTemp, if_neg hmult, if_pos (And.intro hnk hmiddle), List.getD_eq_getElem?_getD, hback,
    hprev, Option.getD_some, xorW_eq_xor]

theorem nextWord_of_plain (hmult : i % nk ≠ 0) (hmiddle : ¬(nk = 8 ∧ i % nk = 4)) :
    nextWord table nk i w = .ok (back ^^^ prev) := by
  simp only [nextWord, transformTemp, if_neg hmult, if_neg hmiddle, List.getD_eq_getElem?_getD, hback, hprev,
    Option.getD_some, xorW_eq_xor]

end Recurrence

/-- A later word of a schedule is the one R220 makes of the schedule itself. -/
theorem expand_getElem?_of_nextWord {table : SboxTable} {key : List Byte} {sched : List Word} {i : Nat} {v : Word}
    (hlegal : (classify key.length).var ≠ 3#2) (hsched : expand table key = .ok sched)
    (hge : (classify key.length).nk ≤ i) (hlt : i < (classify key.length).nw)
    (hnext : nextWord table (classify key.length).nk i sched = .ok v) : sched[i]? = some v := by
  obtain ⟨-, -, hrec⟩ := expand_spec hlegal hsched
  obtain ⟨v', hnext', hi⟩ := hrec i hge hlt
  rw [hi, Except.ok.inj (hnext'.symm.trans hnext)]

/-- Settles O36: one branch of the recurrence for each clause; at a multiple of NK the constant is in the table, because
the position is below NW. -/
theorem expandObeysTheRecurrence : Obligations.ExpandObeysTheRecurrence := by
  unfold Obligations.ExpandObeysTheRecurrence
  rintro table key sched nk i back prev hlegal rfl hsched hge hlt hback hprev
  have hword {v : Word} := expand_getElem?_of_nextWord (v := v) hlegal hsched hge hlt
  refine ⟨fun hmult => ?_, fun hnk hmiddle => ?_, fun hmult hmiddle => ?_⟩
  · have hc := rcRom_eq_xtime_iterate (xg_index_lt key.length i hlt)
    exact ⟨_, hc, hword (nextWord_of_multiple hback hprev hmult hc)⟩
  · exact hword (nextWord_of_middle hback hprev hnk hmiddle)
  · exact hword (nextWord_of_plain hback hprev hmult hmiddle)

/-! ## The length, the first words and the known answer (R221) -/

/-- NW is four words for the initial round key and for each of the NR rounds (R120). -/
theorem nw_eq_four_mul_rounds {n : Nat} (hlegal : (classify n).var ≠ 3#2) :
    (classify n).nw = 4 * ((classify n).nr + 1) := by
  rcases classify_cases n with ⟨rfl, -⟩ | ⟨rfl, -⟩ | ⟨rfl, -⟩ | ⟨-, -, -, h⟩
  · rfl
  · rfl
  · rfl
  · rw [h] at hlegal
    exact absurd rfl hlegal

/-- The first NK words of a schedule are the key's bytes, four by four, none of them filled in. -/
theorem expand_keyWord {table : SboxTable} {key : List Byte} {sched : List Word} {i : Nat}
    (hlegal : (classify key.length).var ≠ 3#2) (hsched : expand table key = .ok sched) (hi : i < (classify key.length).nk) :
    ∃ b0 b1 b2 b3 : Byte, key[4 * i]? = some b0 ∧ key[4 * i + 1]? = some b1 ∧ key[4 * i + 2]? = some b2 ∧
      key[4 * i + 3]? = some b3 ∧ sched[i]? = some (b0 ++ b1 ++ b2 ++ b3) := by
  obtain ⟨-, hkey, -⟩ := expand_spec hlegal hsched
  have hlen := four_mul_nk hlegal
  have hbyte {k : Nat} (hk : k < key.length) : key[k]? = some (key.getD k 0) := by
    rw [List.getD_eq_getElem _ _ hk, List.getElem?_eq_getElem hk]
  exact ⟨_, _, _, _, hbyte (by omega), hbyte (by omega), hbyte (by omega), hbyte (by omega), hkey i hi⟩

/-- The key of the source's known answer (R221). -/
def knownKey : List Byte :=
  [0x00, 0x01, 0x02, 0x03, 0x04, 0x05, 0x06, 0x07, 0x08, 0x09, 0x0a, 0x0b, 0x0c, 0x0d, 0x0e, 0x0f]

/-- The settled entries are those the first `XG` on the known key looks up (R154). -/
theorem subWord_rotWord_of_settledEntries {table : SboxTable} (h : SettledEntries table) :
    subWord table (rotWord 0x0c0d0e0f#32) = 0xd7ab76fe#32 := by
  obtain ⟨-, -, -, -, h12, h13, h14, h15⟩ := h
  calc subWord table (rotWord 0x0c0d0e0f#32)
      = subWord table (rotWord (word32 0x0c#8 0x0d#8 0x0e#8 0x0f#8)) := rfl
    _ = word32 0xd7#8 0xab#8 0x76#8 0xfe#8 := by rw [rotWord_word32, subWord_word32, h13, h14, h15, h12]

/-- The four words after the known key: one `XG` step and three plain ones (R220). -/
theorem expand_knownKey {table : SboxTable} {sched : List Word} (h : SettledEntries table)
    (hsched : expand table knownKey = .ok sched) :
    sched[4]? = some 0xd6aa74fd#32 ∧ sched[5]? = some 0xd2af72fa#32 ∧ sched[6]? = some 0xdaa678f1#32 ∧
      sched[7]? = some 0xd6ab76fe#32 := by
  have hlegal : (classify knownKey.length).var ≠ 3#2 := by decide
  obtain ⟨-, hkey, -⟩ := expand_spec hlegal hsched
  have h0 : sched[0]? = some 0x00010203#32 := hkey 0 (by decide)
  have h1 : sched[1]? = some 0x04050607#32 := hkey 1 (by decide)
  have h2 : sched[2]? = some 0x08090a0b#32 := hkey 2 (by decide)
  have h3 : sched[3]? = some 0x0c0d0e0f#32 := hkey 3 (by decide)
  have hplain {i : Nat} {back prev : Word} (hge : 4 < i) (hlt : i < 8) (hback : sched[i - 4]? = some back)
      (hprev : sched[i - 1]? = some prev) : sched[i]? = some (back ^^^ prev) :=
    expand_getElem?_of_nextWord hlegal hsched (Nat.le_of_lt hge) (Nat.lt_trans hlt (by decide))
      (nextWord_of_plain hback hprev (show i % 4 ≠ 0 by omega) (show ¬(4 = 8 ∧ i % 4 = 4) by omega))
  have h4 : sched[4]? = some 0xd6aa74fd#32 := by
    rw [expand_getElem?_of_nextWord hlegal hsched (by decide) (by decide)
      (nextWord_of_multiple (c := 0x01#8) h0 h3 rfl rfl), subWord_rotWord_of_settledEntries h]
    rfl
  have h5 : sched[5]? = some 0xd2af72fa#32 := hplain (i := 5) (by decide) (by decide) h1 h4
  have h6 : sched[6]? = some 0xdaa678f1#32 := hplain (i := 6) (by decide) (by decide) h2 h5
  have h7 : sched[7]? = some 0xd6ab76fe#32 := hplain (i := 7) (by decide) (by decide) h3 h6
  exact ⟨h4, h5, h6, h7⟩

/-- Settles O35: the length and the key words are `expand_spec`'s; the known answer follows by the recurrence. -/
theorem expandLengthAndPrefix : Obligations.ExpandLengthAndPrefix := by
  unfold Obligations.ExpandLengthAndPrefix
  refine ⟨fun table key hlegal => ?_, fun table hsettled => ?_⟩
  · obtain ⟨sched, hsched⟩ := expand_ok table key
    obtain ⟨hlen, -⟩ := expand_spec hlegal hsched
    exact ⟨sched, hsched, hlen.trans (nw_eq_four_mul_rounds hlegal), fun i hi => expand_keyWord hlegal hsched hi⟩
  · obtain ⟨sched, hsched⟩ := expand_ok table knownKey
    obtain ⟨h4, h5, h6, h7⟩ := expand_knownKey hsettled hsched
    exact ⟨sched, hsched, by simp [List.take_add_one, h4, h5, h6, h7]⟩

/-! ## The schedule in W (R202, R222) -/

theorem stepLevelSchedule_of_run {s t : State} (h : runExpansion s.nw s.startExpansion = .next t) :
    stepLevelSchedule s = some t.builtSchedule := by
  rw [stepLevelSchedule, h]

/-- Settles O38: NW rounds of the step cycle from the start make the progress of a whole schedule. -/
theorem stepCycleBuildsTheSchedule : Obligations.StepCycleBuildsTheSchedule := by
  unfold Obligations.StepCycleBuildsTheSchedule
  intro s keylen index slots hl hlegal
  obtain ⟨sched, hsched⟩ := expand_ok s.sboxRom (requestKey keylen slots)
  have hlatched : expand (s.accept keylen slots index).sboxRom (s.accept keylen slots index).keyValue = .ok sched := by
    rw [accept_keyValue s keylen index hl]
    exact hsched
  obtain ⟨t, hrun, hp⟩ := runExpansion_spec (b := s.accept keylen slots index) hlegal hlatched rfl _ 0 _
    (progress_start _ sched) (Nat.zero_add _)
  have hbuilt : t.builtSchedule = sched :=
    builtSchedule_of_progress (b := s.accept keylen slots index) hlegal hlatched hp
  exact ⟨t, sched, hsched, hrun, hp.pc, hp.built, (stepLevelSchedule_of_run hrun).trans (congrArg some hbuilt)⟩

/-- On a miss of a legal length the whole schedule has been built when the command stores and answers (R248). -/
theorem exec_getrk_of_miss {s t : State} {keylen index : Byte} {slots : List Byte} {sched : List Word}
    (hl : slots.length = 32) (hr : s.ready = true) (hlegal : (classify keylen.toNat).var ≠ 3#2)
    (hmiss : s.cache.lookup (classify keylen.toNat).var (requestKey keylen slots) = none)
    (hsched : expand s.sboxRom (requestKey keylen slots) = .ok sched)
    (h : exec (.getrk keylen slots index) s = .next t) :
    ∃ u r, Progress sched (s.accept keylen slots index) (classify keylen.toNat).nw u ∧ t = (u.store sched).respond r := by
  rcases execGetrk_cases s keylen index slots hl hr with
    ⟨hbad, -⟩ | ⟨-, stored, hhit, -⟩ | ⟨-, -, sched', u, hsched', hp, -, hu⟩
  · exact absurd hbad hlegal
  · cases hmiss.symm.trans hhit
  · cases hsched.symm.trans hsched'
    obtain ⟨r, hanswer⟩ := answer_responds (u.store sched) sched
    cases hu.symm.trans h
    exact ⟨u, r, hp, hanswer⟩

/-- Settles O45: the store and the answer leave the registers of the sequencer and the datapath as the expansion has left
them. -/
theorem missLeavesTheScheduleInW : Obligations.MissLeavesTheScheduleInW := by
  unfold Obligations.MissLeavesTheScheduleInW
  intro s t keylen index slots sched hl hr hlegal hmiss hsched h
  obtain ⟨u, r, hp, rfl⟩ := exec_getrk_of_miss hl hr hlegal hmiss hsched h
  have hnw := nw_le (s.accept keylen slots index)
  rw [accept_nw] at hnw
  refine ⟨hp.pc, fun i hi => ⟨hp.built i hi, ?_⟩, fun i hge hi => ⟨hp.rest i hge, ?_⟩, hp.generator, hp.noGen⟩
  · exact (hp.marks i (by omega)).trans (by rw [decide_eq_true hi])
  · exact (hp.marks i hi).trans (by rw [decide_eq_false (by omega)])

end Sys2Proof.Machine

/-! # The command `GETRK` and the channels it is served on (spec/46_getroundkey.md)

What a ready KSE answers is said once: the response is `respondTo` of the request, whether the schedule comes from the
cache or from an expansion (R254). What a miss leaves in the cache is said of `Store` on one bank, and then of the
lookup of every key. A whole exchange with HOST leads from a state at rest to one at rest, so exchanges follow one
another. -/

namespace Sys2Proof.Machine

/-! ## The answer from a schedule (R250, R251) -/

theorem answer_of_word {s : State} {sched : List Word} {word : Word} (hindex : s.index.toNat < s.nw)
    (hword : sched[s.index.toNat]? = some word) : s.answer sched = s.respond (.ok word) := by
  rw [State.answer, if_pos hindex, hword]

theorem answer_of_index_ge {s : State} (sched : List Word) (hindex : s.nw ≤ s.index.toNat) :
    s.answer sched = s.raise .indexOutOfRange := by
  rw [State.answer, if_neg (by omega)]

section Function

variable {table : SboxTable} {key : List Byte} {sched : List Word} {i : Nat}
  (hlegal : (classify key.length).var ≠ 3#2) (hsched : expand table key = .ok sched)

include hlegal hsched

theorem getRoundKey_of_word {word : Word} (hword : sched[i]? = some word) : getRoundKey table key i = .ok word := by
  obtain ⟨hlen, -⟩ := expand_spec hlegal hsched
  obtain ⟨hi, -⟩ := List.getElem?_eq_some_iff.1 hword
  have hrange : (0 : Int) ≤ i ∧ (i : Int) < (classify key.length).nw := by omega
  simp only [getRoundKey, hsched, if_neg hlegal, if_pos hrange, Int.toNat_natCast, hword]

theorem getRoundKey_of_index_ge (hi : (classify key.length).nw ≤ i) :
    getRoundKey table key i = .err .indexOutOfRange := by
  have hrange : ¬((0 : Int) ≤ i ∧ (i : Int) < (classify key.length).nw) := by omega
  simp only [getRoundKey, hsched, if_neg hlegal, if_neg hrange]

end Function

/-- From `Expand` of the latched key the answer is the response that the latched request determines (R254). -/
theorem answer_eq_respondTo {s : State} {sched : List Word} (hlegal : s.var ≠ 3#2)
    (hsched : expand s.sboxRom s.keyValue = .ok sched) :
    s.answer sched = s.respond (respondTo s.sboxRom s.keylen s.key.toList s.index) := by
  have hvariant := classify_keyValue hlegal
  have hlegal' : (classify s.keyValue.length).var ≠ 3#2 := by rw [hvariant]; exact hlegal
  have hlen : sched.length = s.nw := (expand_spec hlegal' hsched).1.trans (congrArg Variant.nw hvariant)
  have hresp : respondTo s.sboxRom s.keylen s.key.toList s.index =
      getRoundKey s.sboxRom s.keyValue (s.index.toNat : Nat) := if_neg hlegal
  rw [hresp]
  rcases Nat.lt_or_ge s.index.toNat s.nw with hlt | hge
  · have hword : sched[s.index.toNat]? = some sched[s.index.toNat] := List.getElem?_eq_getElem (by omega)
    rw [answer_of_word hlt hword, getRoundKey_of_word hlegal' hsched hword]
  · rw [answer_of_index_ge sched hge, getRoundKey_of_index_ge hlegal' hsched (by rw [hvariant]; exact hge)]
    rfl

/-! ## What a ready KSE answers (R245, R254) -/

/-- The three ways of serving a request end in one response, a function of the request alone. -/
theorem exec_getrk_responds {s : State} (keylen index : Byte) {slots : List Byte} (hl : slots.length = 32)
    (hr : s.ready = true) (hright : CacheRight s.sboxRom s.cache) :
    ∃ u : State, exec (.getrk keylen slots index) s = .next (u.respond (respondTo s.sboxRom keylen slots index)) := by
  have hkey := accept_keyValue s keylen index hl
  have hslots := accept_key_toList s keylen index hl
  rcases execGetrk_cases s keylen index slots hl hr with
    ⟨hbad, h⟩ | ⟨hlegal, sched, hhit, h⟩ | ⟨hlegal, -, sched, u, hsched, hp, -, h⟩
  · have hresp : respondTo s.sboxRom keylen slots index = .err .invalidKeyLength := if_pos hbad
    exact ⟨_, h.trans (by rw [hresp]; rfl)⟩
  · obtain ⟨e, he, hname, rfl⟩ := lookup_mem hhit
    have hanswer := answer_eq_respondTo hlegal (sched := e.sched) (by rw [hkey, ← hname]; exact hright _ e he)
    rw [hslots] at hanswer
    exact ⟨_, h.trans (congrArg _ hanswer)⟩
  · obtain ⟨hsurr, hlatch, -⟩ := onlyDatapathChanged_frame hp.frame
    obtain ⟨hkeylen, hslots', hindex⟩ := latch_eq_iff.1 hlatch
    obtain ⟨hrom, -⟩ := parameters_eq_iff.1 (parameters_of_surroundings hsurr)
    obtain ⟨-, -, hvar, hkey', -⟩ := onlyDatapathChanged_selectors hp.frame
    have hanswer := answer_eq_respondTo (s := u.store sched) (sched := sched) (by rw [store_var, hvar]; exact hlegal)
      (by rw [store_sboxRom, store_keyValue, hrom, hkey', hkey]; exact hsched)
    rw [store_sboxRom, store_keylen, store_key, store_index, hrom, hkeylen, hslots', hindex, hslots] at hanswer
    exact ⟨_, h.trans (congrArg _ hanswer)⟩

/-- Settles O39: the response of `exec_getrk_responds` is written to RESP as BUSY falls. -/
theorem getrkRespondsByTheRequestAlone : Obligations.GetrkRespondsByTheRequestAlone := by
  unfold Obligations.GetrkRespondsByTheRequestAlone
  intro s keylen index slots hl hr hright
  obtain ⟨u, h⟩ := exec_getrk_responds keylen index hl hr hright
  exact ⟨_, h, rfl, rfl, rfl⟩

theorem classify_var_of_bad_length {keylen : Byte} (h16 : keylen ≠ 16#8) (h24 : keylen ≠ 24#8) (h32 : keylen ≠ 32#8) :
    (classify keylen.toNat).var = 3#2 := by
  rcases classify_cases keylen.toNat with ⟨h, -⟩ | ⟨h, -⟩ | ⟨h, -⟩ | ⟨-, -, -, hrow⟩
  · exact absurd (BitVec.eq_of_toNat_eq h) h16
  · exact absurd (BitVec.eq_of_toNat_eq h) h24
  · exact absurd (BitVec.eq_of_toNat_eq h) h32
  · rw [hrow]

/-- Settles O41: a bad length is the first case of serving a request, and raising the error writes RESP and BUSY
only. -/
theorem badKeyLengthIsRefusedFirst : Obligations.BadKeyLengthIsRefusedFirst := by
  unfold Obligations.BadKeyLengthIsRefusedFirst
  intro s keylen index slots hl hr h16 h24 h32
  have hbad := classify_var_of_bad_length h16 h24 h32
  rcases execGetrk_cases s keylen index slots hl hr with ⟨-, h⟩ | ⟨hlegal, -⟩ | ⟨hlegal, -⟩
  · exact ⟨_, h, rfl, rfl, rfl, rfl, ⟨rfl, rfl, rfl, rfl, rfl⟩, accept_latched s keylen index hl,
      rfl, rfl, rfl, rfl, rfl, rfl, rfl, rfl⟩
  · exact absurd hbad hlegal
  · exact absurd hbad hlegal

/-- On a hit the stored schedule is answered from (R247). -/
theorem exec_getrk_of_hit {s : State} {keylen : Byte} (index : Byte) {slots : List Byte} {sched : List Word}
    (hl : slots.length = 32) (hr : s.ready = true) (hlegal : (classify keylen.toNat).var ≠ 3#2)
    (hhit : s.cache.lookup (classify keylen.toNat).var (requestKey keylen slots) = some sched) :
    exec (.getrk keylen slots index) s = .next ((s.accept keylen slots index).answer sched) := by
  rcases execGetrk_cases s keylen index slots hl hr with ⟨hbad, -⟩ | ⟨-, stored, hstored, h⟩ | ⟨-, hmiss, -⟩
  · exact absurd hbad hlegal
  · cases hhit.symm.trans hstored
    exact h
  · cases hhit.symm.trans hmiss

/-- Settles O42: the answer writes RESP and BUSY only, and its response is the stored word or the error by the index. -/
theorem hitAnswersFromTheCache : Obligations.HitAnswersFromTheCache := by
  unfold Obligations.HitAnswersFromTheCache
  intro s keylen index slots sched hl hr hlegal hhit
  have h := exec_getrk_of_hit index hl hr hlegal hhit
  have hword : ∀ word, index.toNat < (classify keylen.toNat).nw → sched[index.toNat]? = some word →
      ((s.accept keylen slots index).answer sched).resp = ⟨true, 0#2, word⟩ := fun word hlt hget => by
    rw [answer_of_word (s := s.accept keylen slots index) hlt hget]
    rfl
  have hrange : (classify keylen.toNat).nw ≤ index.toNat →
      ((s.accept keylen slots index).answer sched).resp = ⟨true, 2#2, 0#32⟩ := fun hge => by
    rw [answer_of_index_ge (s := s.accept keylen slots index) sched hge]
    rfl
  obtain ⟨r, hanswer⟩ := answer_responds (s.accept keylen slots index) sched
  rw [hanswer] at h hword hrange
  exact ⟨_, h, rfl, rfl, rfl, ⟨rfl, rfl, rfl, rfl, rfl⟩, accept_latched s keylen index hl,
    ⟨rfl, rfl, rfl, rfl, rfl, rfl, rfl, rfl⟩, hword, hrange⟩

/-! ## What `Store` does to the lookup of each key (R249) -/

section Store

variable {cap : Option Nat} {n : Nat} {bank : List Entry} {e : Entry}

theorem find?_bankStore_same (hcap : cap ≠ some 0) (key : List Byte) (sched : List Word) :
    (bankStore cap n bank ⟨key, sched⟩).find? (·.key == key) = some ⟨key, sched⟩ := by
  rw [bankStore, if_neg hcap]
  split <;> exact find?_bankInsert_same ⟨key, sched⟩ _

theorem find?_bankStore_of_room (hroom : ∀ c, cap = some c → bank.length < c) {key : List Byte} (hkey : key ≠ e.key) :
    (bankStore cap n bank e).find? (·.key == key) = bank.find? (·.key == key) := by
  cases cap with
  | none => exact find?_bankInsert_other hkey bank
  | some c =>
    rw [bankStore_of_room e (hroom c rfl)]
    exact find?_bankInsert_other hkey bank

end Store

/-- An eviction loses the victim's key and no other. -/
theorem exists_lost_of_bankEvict (n : Nat) (bank : List Entry) : ∃ lost : List Byte, ∀ key, key ≠ lost →
    (bankEvict n bank).find? (·.key == key) = bank.find? (·.key == key) := by
  cases hvictim : bank[Config.victim n % bank.length]? with
  | none => exact ⟨[], fun key _ => find?_eraseIdx_other fun x hx => by cases hvictim.symm.trans hx⟩
  | some victim =>
    refine ⟨victim.key, fun key hkey => find?_eraseIdx_other fun x hx => ?_⟩
    cases hvictim.symm.trans hx
    exact hkey.symm

theorem exists_lost_of_bankStore (cap : Option Nat) (n : Nat) (bank : List Entry) (e : Entry) :
    ∃ lost : List Byte, ∀ key, key ≠ e.key → key ≠ lost →
      (bankStore cap n bank e).find? (·.key == key) = bank.find? (·.key == key) := by
  obtain ⟨lost, hlost⟩ := exists_lost_of_bankEvict n bank
  refine ⟨lost, fun key hkey hne => ?_⟩
  unfold bankStore
  split
  · rfl
  split
  · rw [find?_bankInsert_other hkey, hlost key hne]
  · exact find?_bankInsert_other hkey bank

theorem setBank_bank (c : Cache) (var : BitVec 2) : c.setBank var (c.bank var) = c := by
  rcases var_cases var with rfl | rfl | rfl | rfl <;> rfl

/-- A key keeps its schedule when its bank keeps it. -/
theorem lookup_setBank {c : Cache} {var v : BitVec 2} {bank : List Entry} {key : List Byte} (hlegal : var ≠ 3#2)
    (h : v = var → bank.find? (·.key == key) = (c.bank var).find? (·.key == key)) :
    (c.setBank var bank).lookup v key = c.lookup v key := by
  unfold Cache.lookup
  by_cases hv : v = var
  · rw [hv, bank_setBank_same hlegal, h hv]
  · rw [bank_setBank_other hv]

/-- The cache after a miss is that of `Store` on the bank of the key's variant (R248, R249). -/
theorem cache_of_progress_store {s u : State} {keylen index : Byte} {slots : List Byte} {sched : List Word} {i : Nat}
    (hl : slots.length = 32) (hp : Progress sched (s.accept keylen slots index) i u) :
    (u.store sched).cache = s.cache.setBank (classify keylen.toNat).var
      (bankStore s.cacheCap s.draws (s.cache.bank (classify keylen.toNat).var) ⟨requestKey keylen slots, sched⟩) := by
  have hframe := hp.frame
  rw [OnlyDatapathChanged] at hframe
  rw [← accept_keyValue s keylen index hl, hframe]
  rfl

/-- Settles O43: the cache is `Store`'s on one bank; the clauses are read off the lookups in that bank. -/
theorem missStoresTheWholeSchedule : Obligations.MissStoresTheWholeSchedule := by
  unfold Obligations.MissStoresTheWholeSchedule
  intro s keylen index slots hl hr hlegal hmiss
  obtain ⟨sched, hsched⟩ := expand_ok s.sboxRom (requestKey keylen slots)
  obtain ⟨t, h, -⟩ := exec_getrk_served s keylen index hl hr
  obtain ⟨u, r, hp, rfl⟩ := exec_getrk_of_miss hl hr hlegal hmiss hsched h
  have hcache := cache_of_progress_store hl hp
  refine ⟨_, sched, h, hsched, ?_⟩
  rw [respond_cache, hcache]
  refine ⟨fun hcap => ?_, fun hzero => ?_, bank_setBank_same hlegal _, fun var hvar => bank_setBank_other hvar _,
    fun hroom var key hkey => ?_, ?_⟩
  · rw [Cache.lookup, bank_setBank_same hlegal, find?_bankStore_same hcap]
    rfl
  · rw [hzero, bankStore_zero, setBank_bank]
  · exact lookup_setBank hlegal fun _ => find?_bankStore_of_room hroom hkey
  · obtain ⟨lost, hlost⟩ := exists_lost_of_bankStore s.cacheCap s.draws (s.cache.bank (classify keylen.toNat).var)
      ⟨requestKey keylen slots, sched⟩
    exact ⟨lost, fun var key hkey hne => lookup_setBank hlegal fun hvar => hlost key hkey fun hk => hne ⟨hvar, hk⟩⟩

/-! ## Waiting and taking (R241, R243, R253) -/

/-- Settles O5: the request that is put back is encoded from the fields of the one that came, and is that one. -/
theorem unacceptedRequestWaits : Obligations.UnacceptedRequestWaits := by
  unfold Obligations.UnacceptedRequestWaits
  intro s q hr
  have hwait : exec (decodeRequest q) s =
      .next (s.waitAtPort (encodeRequest (requestByte q 0) ((List.range 32).map (requestSlot q)) (requestByte q 33))) :=
    if_neg (by rw [hr]; decide)
  rw [encodeRequest_fields] at hwait
  exact hwait

/-- A KSE that is not ready leaves the request at the head of the channel, at either level (R241). -/
theorem serveRequest_of_not_ready {s : State} (hr : s.ready = false) (q : Request) :
    serveRequest q s = .next (s.waitAtPort q) := by
  cases hlevel : s.level with
  | command => exact (serveRequest_command hlevel q).trans (unacceptedRequestWaits s q hr)
  | step =>
    unfold serveRequest
    rw [hlevel]
    exact if_neg (by rw [hr]; decide)

/-- Settles O6: the request at the head of the channel, if there is one, is taken off and put back. -/
theorem untakenResponseBlocksAcceptance : Obligations.UntakenResponseBlocksAcceptance := by
  unfold Obligations.UntakenResponseBlocksAcceptance
  intro s hhost hprog hidle hvalid
  rw [step_of_no_host hhost]
  cases hport : s.port with
  | nil => exact kseMove_of_idle hprog hidle hport
  | cons q rest =>
    have hr : ({ s with port := rest } : State).ready = false := by simp [State.ready, hvalid]
    rw [kseMove_of_request hprog hidle hport, serveRequest_of_not_ready hr, State.waitAtPort, ← hport]

/-- Settles O4: HOST's taking writes RESP.VALID, its script and its record. -/
theorem takingTheResponseFreesKse : Obligations.TakingTheResponseFreesKse := by
  unfold Obligations.TakingTheResponseFreesKse
  intro s moves hhost hvalid
  exact ⟨_, step_of_take hhost hvalid, rfl, rfl, rfl, rfl, rfl, fun hidle => ready_iff.2 ⟨hidle, rfl⟩⟩

/-! ## An exchange with HOST (R240, R242) -/

/-- While HOST waits for a response, a ready KSE at the command level serves the request at the head of the channel in
one step, which answers it and leaves the surroundings (R241, R254; log entry 2). -/
theorem step_answers_request {s : State} {q : Request} {rest : List Request} {moves : List HostMove}
    (hhost : s.host = .take :: moves) (hprog : s.program = none) (hr : s.ready = true) (hlevel : s.level = .command)
    (hport : s.port = q :: rest) (hright : CacheRight s.sboxRom s.cache) :
    ∃ u : State, step s = .next (u.respond (respondToWord s.sboxRom q)) ∧
      SurroundingsUnchanged { s with port := rest } u := by
  obtain ⟨hidle, hvalid⟩ := ready_iff.1 hr
  have hstep : step s = exec (decodeRequest q) { s with port := rest } := by
    rw [step_of_take_waiting hhost hvalid, kseMove_of_request hprog hidle hport]
    exact serveRequest_command (s := { s with port := rest }) hlevel q
  have hl : ((List.range 32).map (requestSlot q)).length = 32 := by simp
  obtain ⟨u, h⟩ :=
    exec_getrk_responds (s := { s with port := rest }) (q.extractLsb' 264 8) (q.extractLsb' 0 8) hl hr hright
  obtain ⟨t, ht, hs⟩ := exec_getrk_served { s with port := rest } (q.extractLsb' 264 8) (q.extractLsb' 0 8) hl hr
  cases h.symm.trans ht
  exact ⟨u, hstep.trans h, hs.surroundings⟩

/-- At rest between two exchanges at the command level: nothing is loaded, nothing waits at the channel, and KSE is
ready. -/
structure AtRest (s : State) : Prop where
  inv : Inv s
  noProgram : s.program = none
  ready : s.ready = true
  noRequest : s.port = []
  level : s.level = .command

/-- An offer, its service and the taking are three steps, from rest to rest; HOST has received the response that the
request determines (R242, R254). -/
theorem run_exchange {s : State} {q : Request} {moves : List HostMove} (hrest : AtRest s)
    (hhost : s.host = .offer q :: .take :: moves) :
    ∃ t : State, Host.Core.run Sys2Proof.core 3 s = .next t ∧ AtRest t ∧ t.host = moves ∧ t.sboxRom = s.sboxRom ∧
      t.received = s.received ++ [(respondToWord s.sboxRom q).encode] := by
  obtain ⟨hinv, hprog, hr, hport, hlevel⟩ := hrest
  have hoffer := step_of_offer hhost
  have hinv1 := everyStepKeepsTheInvariant _ _ hinv hoffer
  obtain ⟨u, hanswer, hport', hhost', hreceived, hlevel', hprog', -, -, hrom⟩ :=
    step_answers_request (s := { s with host := .take :: moves, port := s.port ++ [q] }) rfl hprog hr hlevel
      (congrArg (· ++ [q]) hport) hinv1.cacheRight
  have hinv2 := everyStepKeepsTheInvariant _ _ hinv1 hanswer
  have htake := step_of_take (s := u.respond (respondToWord s.sboxRom q)) hhost' rfl
  have hinv3 := everyStepKeepsTheInvariant _ _ hinv2 htake
  exact ⟨_, (run_succ hoffer).trans ((run_succ hanswer).trans (run_succ htake)),
    ⟨hinv3, hprog'.trans hprog, rfl, hport', hlevel'.trans hlevel⟩, rfl, hrom, congrArg (· ++ _) hreceived⟩

/-- Settles O54: two exchanges of `run_exchange`, one after the other. -/
theorem oneResponsePerRequestInOrder : Obligations.OneResponsePerRequestInOrder := by
  unfold Obligations.OneResponsePerRequestInOrder
  intro s q1 q2 hinv hprog hr hport hlevel hhost
  obtain ⟨t, hrun, hrest, hmoves, hrom, hfirst⟩ := run_exchange ⟨hinv, hprog, hr, hport, hlevel⟩ hhost
  obtain ⟨u, hrun', hrest', hdone, -, hsecond⟩ := run_exchange hrest hmoves
  refine ⟨u, (run_add (m := 3) (n := 3) hrun).trans hrun', hrest'.ready, hdone, hrest'.noRequest, ?_⟩
  rw [hsecond, hfirst, hrom, List.append_assoc]
  rfl

end Sys2Proof.Machine

/-! # Unwritten sources, reset and idling (spec/60_exceptions.md; spec/70_reset_and_hazards.md)

An unmarked source word stops the chain at the line that reads it; the constant stands between the two reads, so the second
is reached only when the constant is in range. Reset and idling are the moves of HOST and KSE that the laws of `step` name. -/

namespace Sys2Proof.Machine

/-! ## The reads of a chain step (R283) -/

theorem rconStage_ok_of_lt {rce : Bool} {j : Nat} (hj : rce = true → j < 10) (t : Word) :
    ∃ u, rconStage rce j t = .ok u := by
  cases rce with
  | false => exact ⟨t, rconStage_false j t⟩
  | true =>
    obtain ⟨c, hc⟩ := rcon_ok_of_lt (hj rfl)
    exact ⟨xorW t c, by rw [rconStage, if_pos rfl, hc]⟩

theorem chainStep_of_unmarked_prev {rot sub rce : Bool} {j : Nat} {s : State} (hpos : ChainLegal s)
    (hprev : s.wv[s.pcNat - 1]? = some false) :
    chainStep rot sub rce j s = .fault (.unwrittenRead (s.pcNat - 1) s.pcNat) :=
  chainStep_unwritten_prev hpos (readW_eq_none_of_unmarked hprev)

theorem chainStep_of_unmarked_back {rot sub rce : Bool} {j : Nat} {s : State} (hpos : ChainLegal s)
    (hprev : s.wv[s.pcNat - 1]? = some true) (hback : s.wv[s.pcNat - s.nk]? = some false) (hj : rce = true → j < 10) :
    chainStep rot sub rce j s = .fault (.unwrittenRead (s.pcNat - s.nk) s.pcNat) := by
  obtain ⟨t, hread⟩ := readW_isSome_of_marked hprev
  obtain ⟨u, hunits⟩ := rconStage_ok_of_lt hj (subStage s.sboxRom sub (rotStage rot t))
  exact chainStep_unwritten_back hpos hread hunits (readW_eq_none_of_unmarked hback)

/-- `XP`, `XS` and `XG j` are the chain, and only `XG j` enables the constant, whose index is `j` (R211 to R213). -/
theorem exists_chainStep_of_mem {i : Instr} {j : Nat} (hi : i ∈ [Instr.xp, Instr.xs, Instr.xg j]) (s : State) :
    ∃ rot sub rce n, exec i s = chainStep rot sub rce n s ∧ (rce = true → i = .xg j ∧ n = j) := by
  simp only [List.mem_cons, List.not_mem_nil, or_false] at hi
  obtain rfl | rfl | rfl := hi
  · exact ⟨_, _, _, _, exec_xp s, nofun⟩
  · exact ⟨_, _, _, _, exec_xs s, nofun⟩
  · exact ⟨_, _, _, _, exec_xg j s, fun _ => ⟨rfl, rfl⟩⟩

/-- Settles O32: the chain stops at the first read whose word is unmarked; where the constant is enabled the instruction
is `XG j`, and `j < 10` lets the chain reach its second read. -/
theorem unwrittenSourceFaults : Obligations.UnwrittenSourceFaults := by
  unfold Obligations.UnwrittenSourceFaults
  intro s j hpos i hi
  obtain ⟨rot, sub, rce, n, hexec, hconst⟩ := exists_chainStep_of_mem hi s
  rw [hexec]
  refine ⟨chainStep_of_unmarked_prev hpos, fun hprev hback hj => chainStep_of_unmarked_back hpos hprev hback fun hrce => ?_⟩
  obtain ⟨hxg, rfl⟩ := hconst hrce
  exact hj hxg

/-! ## Idling and reset (R297, R311 to R313) -/

/-- Settles O7: with no HOST move the step is KSE's, and an idle KSE waits. -/
theorem idleKseWaits : Obligations.IdleKseWaits := by
  unfold Obligations.IdleKseWaits
  intro s hhost hprog hidle hport
  exact (step_of_no_host hhost).trans (kseMove_of_idle hprog hidle hport)

/-- Settles O3: the reset input gives KSE the cache, BUSY, RESP, pc and marks of the reset state, and keeps HOST's fields,
the level and the parameters. -/
theorem resetAbandonsTheCommand : Obligations.ResetAbandonsTheCommand := by
  unfold Obligations.ResetAbandonsTheCommand
  intro s moves hhost
  obtain ⟨hidle, hvalid, hpc, hmarks, -⟩ := resetLeavesKseIdle
  have hempty (var : BitVec 2) : State.reset.cache.bank var = [] := bank_empty var
  exact ⟨_, step_of_reset hhost, hempty, hidle, hvalid, hpc, hmarks, rfl, rfl, rfl, rfl, rfl, rfl, rfl, rfl⟩

end Sys2Proof.Machine
